-- ==== Sys2Proof/Word.lean ====
section
/-! DEFINITION. The word types of the block: RDATA, pos and lim are 32 bits (00_scope R10), a stream
byte is 8 bits (R11), a command word is 40 bits and a response word 34 bits (30_encoding R60, R64). -/

namespace Sys2Proof

/-- RDATA, `pos`, `lim`, ARG (W_DATA = W_POS = 32, 00_scope R10). -/
abbrev Word := BitVec 32

/-- One byte of the stream (00_scope R11). -/
abbrev Byte := BitVec 8

/-- A command word (30_encoding R60). -/
abbrev CmdWord := BitVec 40

/-- A response word (30_encoding R64). -/
abbrev RespWord := BitVec 34

end Sys2Proof
end

