-- ==== Sys2Proof/Config.lean ====
section
/-! DEFINITION. What is fixed for the machine (00_scope R10) and the free values of the spec. The stream
itself (`MEM`, `LEN`), also a parameter there, stands in State, because the host binds it while the
machine runs (70_reset R182, R183). -/

namespace Sys2Proof.Config

/-- N_MAX: the largest bit count of READ_BITS and READ_SBITS (00_scope R10, D8). -/
abbrev nMax : Nat := 32

/-- `draw32`: "a 32-bit value the model leaves free: any value, under no law" (00_scope R14). The k-th
draw is `draw32 k`. It has no body, so nothing can be proved of its values. -/
opaque draw32 : Nat → Word

/-- LATENCY: clock cycles from command accept to response, OPEN, "no rule depends on it" (00_scope R10,
70_reset R190). Nothing of the model reads it. -/
opaque latency : Nat

end Sys2Proof.Config
end

