-- ==== Sys2Proof/Syntax.lean ====
section
/-! DEFINITION. The commands of the block: one constructor for each row of the opcode map (30_encoding
R63), the forms of ARG (R62), and the names under which a word is rejected (R66). -/

namespace Sys2Proof

/-- The commands (30_encoding R63). `n` of an N-form command is the field ARG[5:0]; the argument of a
U-form command is ARG whole (R62). -/
inductive Instr where
  | readBit
  | readBits (n : BitVec 6)
  | readSbits (n : BitVec 6)
  | readByte
  | readU16
  | readU32
  | readS8
  | readS16
  | readS32
  | align
  | skip (n : Word)
  | setLim (a : Word)
  | getPos
  | getStatus
  | escStart
  | escBytein
deriving DecidableEq, Repr

/-- The three forms of ARG (30_encoding R62). -/
inductive ArgForm where
  | z
  | n
  | u
deriving DecidableEq, Repr

/-- Why a command word is no command: the encodings of 30_encoding R66 that are illegal in every state. -/
inductive Reject where
  /-- OP is not listed in R63. -/
  | unassignedOpcode
  /-- A Z-form command with ARG other than 0. -/
  | argNotZero
  /-- An N-form command with ARG[31:6] other than 0. -/
  | reservedArgBits
  /-- An N-form command whose n is outside its range (R62). -/
  | countOutOfRange
deriving DecidableEq, Repr

end Sys2Proof
end

