-- ==== Sys2Proof/WellFormed.lean ====
section
/-! DEFINITION. Which terms of Instr are commands: the range of n (30_encoding R62, R66, D8). -/

namespace Sys2Proof

/-- READ_BITS takes n in 0..32, READ_SBITS n in 1..32; every other term is a command (30_encoding R62). -/
def Instr.wf : Instr → Bool
  | .readBits n => decide (n.toNat ≤ Config.nMax)
  | .readSbits n => decide (1 ≤ n.toNat ∧ n.toNat ≤ Config.nMax)
  | .readBit => true
  | .readByte => true
  | .readU16 => true
  | .readU32 => true
  | .readS8 => true
  | .readS16 => true
  | .readS32 => true
  | .align => true
  | .skip _ => true
  | .setLim _ => true
  | .getPos => true
  | .getStatus => true
  | .escStart => true
  | .escBytein => true

end Sys2Proof
end

