-- ==== Sys2Proof/Decode.lean ====
section
/-! DEFINITION. The decoder, total on 40-bit command words, and the encoder (30_encoding R60 to R63, R66,
R68). Both are written from the map of R63. -/

namespace Sys2Proof

/-- OP, bits 39:32 of a command word (30_encoding R60). -/
def opField (w : CmdWord) : BitVec 8 := w.extractLsb' 32 8

/-- ARG, bits 31:0 of a command word (30_encoding R60). -/
def argField (w : CmdWord) : Word := w.extractLsb' 0 32

/-- Form Z: ARG must be 0 (30_encoding R62). -/
def decodeZ (i : Instr) (arg : Word) : Except Reject Instr :=
  if arg = 0#32 then .ok i else .error .argNotZero

/-- Form N: ARG[31:6] must be 0 and n = ARG[5:0] in lo..N_MAX (30_encoding R62). -/
def decodeN (lo : Nat) (mk : BitVec 6 → Instr) (arg : Word) : Except Reject Instr :=
  if arg.extractLsb' 6 26 = 0#26 then
    let n : BitVec 6 := arg.extractLsb' 0 6
    if lo ≤ n.toNat ∧ n.toNat ≤ Config.nMax then .ok (mk n) else .error .countOutOfRange
  else .error .reservedArgBits

/-- The opcode map: the command of an opcode and an argument, or the name of the reason there is none
(30_encoding R63, R66). -/
def decodeFields (op : Nat) (arg : Word) : Except Reject Instr :=
  match op with
  | 0x01 => decodeZ .readBit arg
  | 0x02 => decodeN 0 .readBits arg
  | 0x03 => decodeN 1 .readSbits arg
  | 0x04 => decodeZ .readByte arg
  | 0x05 => decodeZ .readU16 arg
  | 0x06 => decodeZ .readU32 arg
  | 0x07 => decodeZ .readS8 arg
  | 0x08 => decodeZ .readS16 arg
  | 0x09 => decodeZ .readS32 arg
  | 0x10 => decodeZ .align arg
  | 0x11 => .ok (.skip arg)
  | 0x12 => .ok (.setLim arg)
  | 0x13 => decodeZ .getPos arg
  | 0x14 => decodeZ .getStatus arg
  | 0x20 => decodeZ .escStart arg
  | 0x21 => decodeZ .escBytein arg
  | _ => .error .unassignedOpcode

/-- The command a word stands for, or the name of the reason it stands for none (30_encoding R60). -/
def decode (w : CmdWord) : Except Reject Instr := decodeFields (opField w).toNat (argField w)

/-- The opcode of a command (30_encoding R63). -/
def Instr.op : Instr → BitVec 8
  | .readBit => 0x01#8
  | .readBits _ => 0x02#8
  | .readSbits _ => 0x03#8
  | .readByte => 0x04#8
  | .readU16 => 0x05#8
  | .readU32 => 0x06#8
  | .readS8 => 0x07#8
  | .readS16 => 0x08#8
  | .readS32 => 0x09#8
  | .align => 0x10#8
  | .skip _ => 0x11#8
  | .setLim _ => 0x12#8
  | .getPos => 0x13#8
  | .getStatus => 0x14#8
  | .escStart => 0x20#8
  | .escBytein => 0x21#8

/-- The ARG of a command in its form (30_encoding R62). -/
def Instr.arg : Instr → Word
  | .readBits n => n.setWidth 32
  | .readSbits n => n.setWidth 32
  | .skip n => n
  | .setLim a => a
  | .readBit => 0#32
  | .readByte => 0#32
  | .readU16 => 0#32
  | .readU32 => 0#32
  | .readS8 => 0#32
  | .readS16 => 0#32
  | .readS32 => 0#32
  | .align => 0#32
  | .getPos => 0#32
  | .getStatus => 0#32
  | .escStart => 0#32
  | .escBytein => 0#32

/-- `(OP << 32) | ARG`, as the concatenation of the two fields (30_encoding R60, R69). -/
def commandWord (op : BitVec 8) (arg : Word) : CmdWord := op ++ arg

/-- The word of a command (30_encoding R60 to R63). -/
def encode (i : Instr) : CmdWord := commandWord i.op i.arg

/-- The host's reading of a table row's word: the low `nbits` bits of `w`, bit 0 the least significant bit
of the one 40-bit word; bits above `nbits` are 0. A number that needs more than 40 bits is no command word. -/
def decodeTableWord (nbits w : Nat) : Option Instr :=
  if w % 2 ^ nbits < 2 ^ 40 then
    match decode (BitVec.ofNat 40 (w % 2 ^ nbits)) with
    | .ok i => some i
    | .error _ => none
  else none

end Sys2Proof
end

