-- ==== Sys2Proof/Machine/State.lean ====
section
/-! DEFINITION. The state of the block: the ten registers of 10_state R22, the stream the host has bound,
the two ports, and the counter of free values. Reset values are those of 10_state R32. -/

namespace Sys2Proof.Machine

/-- The bound stream's bytes, in canonical form: addresses strictly rising, no entry equal to what an
unlisted address reads as (see `Memory.wf`). -/
abbrev Memory := List Host.Cell

/-- CODE of a response (30_encoding R64). Value 3 is never produced and has no constructor. -/
inductive Code where
  /-- 0: the command did what its rule says. -/
  | ok
  /-- 1: stream exhausted. -/
  | exh
  /-- 2: illegal command. -/
  | ill
deriving DecidableEq, Repr

/-- A response (30_encoding R64); `Response.word` is its 34-bit word. -/
structure Response where
  code : Code
  rdata : Word
deriving DecidableEq, Repr

/-- What the outside presents to the block, one thing at a time (30_encoding R61, 70_reset R180, R182). -/
inductive Input where
  /-- The consumer presents a command word (30_encoding R61). -/
  | command (w : CmdWord)
  /-- The host asserts reset between commands (70_reset R180). -/
  | reset
  /-- The host binds a stream and then resets (70_reset R182, steps 1 and 2). -/
  | bind (bytes : List Byte)
deriving DecidableEq, Repr

/-- The machine. -/
structure State where
  /-- Index of the next byte of the stream not yet fetched (10_state R23). -/
  pos : Word
  /-- Software limit on readable bytes (10_state R24). -/
  lim : Word
  /-- The most recently fetched raw byte (10_state R27). -/
  bitbuf : Byte
  /-- How many bits of `bitbuf` are not yet consumed, 0..7 (10_state R27). -/
  bitcnt : BitVec 4
  /-- The escape path's current byte (10_state R28). -/
  b0 : Byte
  /-- The escape path's one-byte lookahead (10_state R28). -/
  b1 : Byte
  /-- Escape path active (10_state R28). -/
  esc : Bool
  /-- Sticky: a raw read or SKIP failed for lack of data (10_state R29). -/
  eos : Bool
  /-- Sticky: the escape path supplied a fill byte (10_state R29). -/
  fill : Bool
  /-- Sticky: an illegal command was received (10_state R29). -/
  ill : Bool
  /-- LEN, the length of the bound stream (00_scope R10, 20_memory R40). -/
  len : Word
  /-- MEM, the bytes of the bound stream (20_memory R40). -/
  mem : Memory
  /-- What the consumer and the host still have to present, oldest first; the head is next. -/
  inbox : List Input
  /-- The response the last input got, none if it gets none (30_encoding R64). -/
  resp : Option Response
  /-- The model's own: how many free values have been drawn (`Config.draw32`). -/
  draws : Nat
deriving DecidableEq, Repr

/-- Why a step could stop. The block itself never stops (70_reset R191). -/
inductive Fault where
  /-- Raised by `memRead` at an address that the stream does not have. 00_scope R14: a read "is only ever
  evaluated with a < LEN"; no state reaches this fault. Safe: the model stops. -/
  | readOutsideStream
deriving DecidableEq, Repr

/-- What the model leaves out, by name. -/
inductive Refusal where
  /-- Raised by an arm of `exec` whose instruction has no meaning yet; no arm is one. Safe. -/
  | notModelled (mnemonic : String)
  /-- Raised by `step` when the host binds a stream of 2^32 bytes or more, which 00_scope R10 and 70_reset
  R182 exclude ("Streams of 2^32 bytes or more are not modelled", D9). Safe: the model stops. -/
  | streamTooLong
deriving DecidableEq, Repr

/-- The machine right after reset: the registers of 10_state R32; no stream is bound yet, which is
LEN = 0 (70_reset R183; log entry 5); nothing is presented and nothing has been answered. -/
def State.reset : State where
  pos := 0#32
  lim := 0xFFFFFFFF#32
  bitbuf := 0x00#8
  bitcnt := 0#4
  b0 := 0x00#8
  b1 := 0x00#8
  esc := false
  eos := false
  fill := false
  ill := false
  len := 0#32
  mem := []
  inbox := []
  resp := none
  draws := 0

end Sys2Proof.Machine
end

