-- ==== Sys2Proof/Machine/Operands.lean ====
section
/-! DEFINITION. The values that commands compute with: the derived E and AVB (10_state R25, R26), zero and
sign extension (00_scope R13), the constants and the RDATA layout of the escape path (30_encoding R65,
43_escape_path R141, R143), and the response word (30_encoding R64). -/

namespace Sys2Proof.Machine

/-- E = min(lim, LEN), the effective end of readable data (10_state R25). -/
def State.effEnd (s : State) : Nat := min s.lim.toNat s.len.toNat

/-- AVB = bitcnt + 8 * max(0, E - pos), the raw bits still readable (10_state R26). Subtraction of
natural numbers stops at 0, as the rule's max does. -/
def State.avb (s : State) : Nat := s.bitcnt.toNat + 8 * (s.effEnd - s.pos.toNat)

/-- zext_32 (00_scope R13). -/
def zext32 (v : Nat) : Word := BitVec.ofNat 32 v

/-- sext_n: the 32-bit two's-complement pattern of v - 2^n * v[n-1] (00_scope R13), for 1 ≤ n ≤ 32. -/
def sext (n v : Nat) : Word :=
  BitVec.ofInt 32 ((v : Int) - 2 ^ n * (if v.testBit (n - 1) then 1 else 0))

/-- The byte that starts an escape (43_escape_path R143). -/
abbrev escapeByte : Byte := 0xFF#8

/-- The largest byte that, after 0xFF, is a stuffed byte; a larger one is a marker (43_escape_path R143).
The spec's own choice, not its source's (log entry 13). -/
abbrev stuffedMax : Byte := 0x8F#8

/-- What the escape path supplies past the end of readable data (43_escape_path R141). -/
abbrev fillByte : Byte := 0xFF#8

/-- `b0 = 0xFF and b1 > 0x8F`: the escape path stands at a marker (43_escape_path R143). -/
def State.atMarker (s : State) : Bool := s.b0 == escapeByte && decide (stuffedMax < s.b1)

/-- The number of data bits of the byte after `b0`: 7 after 0xFF, else 8 (43_escape_path R143). -/
def escCt (b0 : Byte) : BitVec 4 := if b0 = escapeByte then 7#4 else 8#4

/-- RDATA of ESC_START and ESC_BYTEIN, `{0[17:0], FILL, MARKER, CT[3:0], BYTE}` (30_encoding R65). -/
def escData (fill marker : Bool) (ct : BitVec 4) (byte : Byte) : Word :=
  0#18 ++ BitVec.ofBool fill ++ BitVec.ofBool marker ++ ct ++ byte

/-- CODE as bits 33:32 of a response word (30_encoding R64). -/
def Code.bits : Code → BitVec 2
  | .ok => 0#2
  | .exh => 1#2
  | .ill => 2#2

/-- The response word `{CODE, RDATA}` (30_encoding R64). -/
def Response.word (r : Response) : RespWord := r.code.bits ++ r.rdata

end Sys2Proof.Machine
end

