-- ==== Sys2Proof/Machine/Flags.lean ====
section
/-! DEFINITION. The sticky flags and the STATUS view (10_state R29, R30). Nothing here clears a flag: only
reset does. -/

namespace Sys2Proof.Machine

/-- The raw-failure procedure sets `eos` (10_state R29). -/
def State.setEos (s : State) : State := { s with eos := true }

/-- An escape fetch that supplies a fill byte sets `fill` (10_state R29). -/
def State.setFill (s : State) : State := { s with fill := true }

/-- An illegal command sets `ill` (10_state R29). -/
def State.setIll (s : State) : State := { s with ill := true }

/-- STATUS, `{0[23:0], bitcnt[3:0], esc, ill, fill, eos}` (10_state R30, 42_stream_control R125). -/
def State.status (s : State) : Word :=
  0#24 ++ s.bitcnt ++ BitVec.ofBool s.esc ++ BitVec.ofBool s.ill ++ BitVec.ofBool s.fill
    ++ BitVec.ofBool s.eos

end Sys2Proof.Machine
end

