-- ==== Sys2Proof/Machine/Ops.lean ====
section
/-! DEFINITION. The operations that commands share: the stream's memory, MemRead, the response, the illegal
command, the raw-path entry, FailRaw, TakeBit, TakeBits, TakeBytes, EscFetch, and the host's reset and
binding. The block has no trap (60_exceptions R164): FailRaw and the illegal command are what it has in
place of taking an exception, and nothing returns from them (R165). -/

namespace Sys2Proof.Machine

/-- What an address that `mem` does not list reads as (log entry 6). -/
def Memory.unlisted : Byte := 0x00#8

/-- The byte at an address. -/
def Memory.read : Memory → Nat → Byte
  | [], _ => Memory.unlisted
  | (k, v) :: m, a => if k = a then v else Memory.read m a

/-- The canonical memory that holds `bytes` from address `a` on: the stream the host presents. -/
def Memory.ofBytes : Nat → List Byte → Memory
  | _, [] => []
  | a, b :: bs =>
    if b = Memory.unlisted then Memory.ofBytes (a + 1) bs else (a, b) :: Memory.ofBytes (a + 1) bs

/-- Every entry from `lo` on: addresses strictly rising, no unlisted value, all below `hi`. -/
def Memory.wfFrom (hi : Nat) : Nat → Memory → Bool
  | _, [] => true
  | lo, (k, v) :: m =>
    decide (lo ≤ k) && decide (k < hi) && decide (v ≠ Memory.unlisted) && Memory.wfFrom hi (k + 1) m

/-- The canonical form of the memory of a stream of `len` bytes: addresses strictly rising and below `len`,
no entry equal to what an unlisted address reads as. -/
def Memory.wf (len : Nat) (m : Memory) : Bool := Memory.wfFrom len 0 m

/-- `MemRead(a, 1)`, which the rules evaluate only with a < LEN (00_scope R14). -/
def memRead (s : State) (a : Nat) : Except Fault Byte :=
  if a < s.len.toNat then .ok (s.mem.read a) else .error .readOutsideStream

/-- `respond(code, rdata)` (00_scope R14). -/
def State.respond (s : State) (code : Code) (rdata : Word) : State :=
  { s with resp := some ⟨code, rdata⟩ }

/-- An illegal command: `ill <- 1`, `respond(ILL, 0x00000000)`, nothing else (60_exceptions R162). -/
def State.illegal (s : State) : State := s.setIll.respond .ill 0#32

/-- The raw-path entry `esc <- 0` (40_raw_bit_reads R83). -/
def State.rawEntry (s : State) : State := { s with esc := false }

/-- The raw-path entry and the byte-align of a byte-granular command (41_raw_byte_reads R100). -/
def State.byteEntry (s : State) : State := { s with esc := false, bitcnt := 0#4 }

/-- FailRaw: every remaining readable byte counts as consumed, `eos <- 1`, EXH with a free RDATA
(40_raw_bit_reads R84). -/
def State.failRaw (s : State) : State :=
  ({ s with
      pos := BitVec.ofNat 32 (max s.pos.toNat s.effEnd), bitcnt := 0#4, esc := false
      draws := s.draws + 1 } : State).setEos.respond .exh (Config.draw32 s.draws)

/-- Reads the byte at `pos` and moves `pos` past it. -/
def fetchByte (s : State) : Except Fault (Byte × State) := do
  let b ← memRead s s.pos.toNat
  pure (b, { s with pos := s.pos + 1#32 })

/-- The first half of TakeBit: when every bit of `bitbuf` is consumed, fetch the next byte into it
(40_raw_bit_reads R81). -/
def refill (s : State) : Except Fault State :=
  if s.bitcnt = 0#4 then do
    let (b, s₁) ← fetchByte s
    pure { s₁ with bitbuf := b, bitcnt := 8#4 }
  else pure s

/-- TakeBit: one raw bit, the most significant unconsumed bit first (40_raw_bit_reads R81). -/
def takeBit (s : State) : Except Fault (Bool × State) := do
  let s₁ ← refill s
  let c := s₁.bitcnt - 1#4
  pure (s₁.bitbuf.getLsbD c.toNat, { s₁ with bitcnt := c })

/-- The loop of TakeBits: `n` times `v <- 2*v + TakeBit()` (40_raw_bit_reads R82). -/
def takeBitsFrom : Nat → Nat → State → Except Fault (Nat × State)
  | 0, v, s => pure (v, s)
  | n + 1, v, s => do
    let (b, s₁) ← takeBit s
    takeBitsFrom n (2 * v + b.toNat) s₁

/-- TakeBits(n): `n` raw bits as an unsigned number, first bit most significant (40_raw_bit_reads R82). -/
def takeBits (n : Nat) (s : State) : Except Fault (Nat × State) := takeBitsFrom n 0 s

/-- The loop of TakeBytes: `k` times `v <- 256*v + MemRead(pos, 1)` (41_raw_byte_reads R100). -/
def takeBytesFrom : Nat → Nat → State → Except Fault (Nat × State)
  | 0, v, s => pure (v, s)
  | k + 1, v, s => do
    let (b, s₁) ← fetchByte s
    takeBytesFrom k (256 * v + b.toNat) s₁

/-- TakeBytes(k): `k` whole bytes, big-endian (41_raw_byte_reads R100, 20_memory R44). -/
def takeBytes (k : Nat) (s : State) : Except Fault (Nat × State) := takeBytesFrom k 0 s

/-- EscFetch: the next escape-path byte, or a fill byte when none is readable; the flag says which
(43_escape_path R141). -/
def escFetch (s : State) : Except Fault (Byte × Bool × State) :=
  if s.pos.toNat < s.effEnd then do
    let (b, s₁) ← fetchByte s
    pure (b, false, s₁)
  else pure (fillByte, true, s.setFill)

/-- The end of a command: its state is the next one, unless a read outside the stream was evaluated. -/
def finish (r : Except Fault State) : Host.Outcome State Fault Refusal :=
  match r with
  | .ok s => .next s
  | .error f => .fault f

/-- Reset: every register takes its value of 10_state R32; it reads nothing and gives no response
(70_reset R180). The stream stays bound, the free values drawn stay drawn. -/
def State.resetRegs (s : State) : State :=
  { s with
    pos := 0#32, lim := 0xFFFFFFFF#32, bitbuf := 0x00#8, bitcnt := 0#4, b0 := 0x00#8, b1 := 0x00#8
    esc := false, eos := false, fill := false, ill := false, resp := none }

/-- The host presents `MEM` and `LEN` (70_reset R182, step 1). -/
def State.bindStream (s : State) (bytes : List Byte) : State :=
  { s with mem := Memory.ofBytes 0 bytes, len := BitVec.ofNat 32 bytes.length }

end Sys2Proof.Machine
end

