-- ==== Sys2Proof/Machine/Escape.lean ====
section
/-! DEFINITION. The escape path: ESC_START, ESC_BYTEIN (43_escape_path R140 to R143). -/

namespace Sys2Proof.Machine

/-- ESC_START: byte-align, then load `b0` and its lookahead `b1` (43_escape_path R142). -/
def execEscStart (s : State) : Host.Outcome State Fault Refusal :=
  finish do
    let (v0, f0, s₁) ← escFetch { s with bitcnt := 0#4 }
    let (v1, f1, s₂) ← escFetch s₁
    pure (({ s₂ with b0 := v0, b1 := v1, esc := true } : State).respond .ok
      (escData (f0 || f1) false 8#4 v0))

/-- ESC_BYTEIN: illegal while `esc = 0`; at a marker it does not advance; else one byte on, with CT = 7
after 0xFF (43_escape_path R143). -/
def execEscBytein (s : State) : Host.Outcome State Fault Refusal :=
  if s.esc then
    if s.atMarker then .next (s.respond .ok (escData false true 8#4 escapeByte))
    else finish do
      let (v, f, s₁) ← escFetch { s with b0 := s.b1 }
      pure (({ s₁ with b1 := v } : State).respond .ok (escData f false (escCt s.b0) s.b1))
  else .next s.illegal

end Sys2Proof.Machine
end

