-- ==== Sys2Proof/Machine/RawBits.lean ====
section
/-! DEFINITION. Raw bit reads: READ_BIT, READ_BITS, READ_SBITS (40_raw_bit_reads R85 to R87). -/

namespace Sys2Proof.Machine

/-- The shape of READ_BITS and READ_SBITS: the raw-path entry, FailRaw when fewer than `n` bits are
readable, else the field through its extension (40_raw_bit_reads R86, R87). -/
def readField (n : Nat) (ext : Nat → Word) (s : State) : Host.Outcome State Fault Refusal :=
  let s₀ := s.rawEntry
  if s₀.avb < n then .next s₀.failRaw
  else finish do
    let (v, s₁) ← takeBits n s₀
    pure (s₁.respond .ok (ext v))

/-- READ_BIT (40_raw_bit_reads R85). -/
def execReadBit (s : State) : Host.Outcome State Fault Refusal :=
  let s₀ := s.rawEntry
  if s₀.avb < 1 then .next s₀.failRaw
  else finish do
    let (b, s₁) ← takeBit s₀
    pure (s₁.respond .ok (zext32 b.toNat))

/-- READ_BITS n; n > 32 is an illegal command (40_raw_bit_reads R86). -/
def execReadBits (n : BitVec 6) (s : State) : Host.Outcome State Fault Refusal :=
  if n.toNat ≤ Config.nMax then readField n.toNat zext32 s
  else .next s.illegal

/-- READ_SBITS n; n = 0 and n > 32 are illegal commands (40_raw_bit_reads R87). -/
def execReadSbits (n : BitVec 6) (s : State) : Host.Outcome State Fault Refusal :=
  if 1 ≤ n.toNat ∧ n.toNat ≤ Config.nMax then readField n.toNat (sext n.toNat) s
  else .next s.illegal

end Sys2Proof.Machine
end

