-- ==== Sys2Proof/Machine/RawBytes.lean ====
section
/-! DEFINITION. Raw byte reads: READ_BYTE, READ_U16, READ_U32, READ_S8, READ_S16, READ_S32
(41_raw_byte_reads R101 to R106). -/

namespace Sys2Proof.Machine

/-- The shape of a byte read: the prologue with `k`, FailRaw when `pos + k > E`, else `k` big-endian bytes
through their extension (41_raw_byte_reads R100). -/
def readBytes (k : Nat) (ext : Nat → Word) (s : State) : Host.Outcome State Fault Refusal :=
  let s₀ := s.byteEntry
  if s₀.pos.toNat + k > s₀.effEnd then .next s₀.failRaw
  else finish do
    let (v, s₁) ← takeBytes k s₀
    pure (s₁.respond .ok (ext v))

/-- READ_BYTE (41_raw_byte_reads R101). -/
def execReadByte (s : State) : Host.Outcome State Fault Refusal := readBytes 1 zext32 s

/-- READ_U16 (41_raw_byte_reads R102). -/
def execReadU16 (s : State) : Host.Outcome State Fault Refusal := readBytes 2 zext32 s

/-- READ_U32 (41_raw_byte_reads R103). -/
def execReadU32 (s : State) : Host.Outcome State Fault Refusal := readBytes 4 zext32 s

/-- READ_S8 (41_raw_byte_reads R104). -/
def execReadS8 (s : State) : Host.Outcome State Fault Refusal := readBytes 1 (sext 8) s

/-- READ_S16 (41_raw_byte_reads R105). -/
def execReadS16 (s : State) : Host.Outcome State Fault Refusal := readBytes 2 (sext 16) s

/-- READ_S32 (41_raw_byte_reads R106). -/
def execReadS32 (s : State) : Host.Outcome State Fault Refusal := readBytes 4 (sext 32) s

end Sys2Proof.Machine
end

