-- ==== Sys2Proof/Machine/StreamControl.lean ====
section
/-! DEFINITION. Stream control: ALIGN, SKIP, SET_LIM, GET_POS, GET_STATUS (42_stream_control R120 to
R125). -/

namespace Sys2Proof.Machine

/-- ALIGN (42_stream_control R121). -/
def execAlign (s : State) : Host.Outcome State Fault Refusal :=
  .next (s.byteEntry.respond .ok 0#32)

/-- SKIP n; `pos + n` does not wrap (42_stream_control R122). -/
def execSkip (n : Word) (s : State) : Host.Outcome State Fault Refusal :=
  let s₀ := s.byteEntry
  if s₀.pos.toNat + n.toNat > s₀.effEnd then .next s₀.failRaw
  else .next (({ s₀ with pos := BitVec.ofNat 32 (s₀.pos.toNat + n.toNat) } : State).respond .ok 0#32)

/-- SET_LIM a: no raw-path command, it leaves the escape path alone (42_stream_control R120, R123). -/
def execSetLim (a : Word) (s : State) : Host.Outcome State Fault Refusal :=
  .next (({ s with lim := a } : State).respond .ok 0#32)

/-- GET_POS (42_stream_control R124). -/
def execGetPos (s : State) : Host.Outcome State Fault Refusal :=
  .next (s.respond .ok s.pos)

/-- GET_STATUS (42_stream_control R125). -/
def execGetStatus (s : State) : Host.Outcome State Fault Refusal :=
  .next (s.respond .ok s.status)

end Sys2Proof.Machine
end

