-- ==== Sys2Proof/Machine/Dispatch.lean ====
section
/-! DEFINITION. The meaning of each command: one direct call for each constructor of Instr. -/

namespace Sys2Proof.Machine

def exec (i : Instr) (s : State) : Host.Outcome State Fault Refusal :=
  match i with
  | .readBit => Sys2Proof.Machine.execReadBit s
  | .readBits n => Sys2Proof.Machine.execReadBits n s
  | .readSbits n => Sys2Proof.Machine.execReadSbits n s
  | .readByte => Sys2Proof.Machine.execReadByte s
  | .readU16 => Sys2Proof.Machine.execReadU16 s
  | .readU32 => Sys2Proof.Machine.execReadU32 s
  | .readS8 => Sys2Proof.Machine.execReadS8 s
  | .readS16 => Sys2Proof.Machine.execReadS16 s
  | .readS32 => Sys2Proof.Machine.execReadS32 s
  | .align => Sys2Proof.Machine.execAlign s
  | .skip n => Sys2Proof.Machine.execSkip n s
  | .setLim a => Sys2Proof.Machine.execSetLim a s
  | .getPos => Sys2Proof.Machine.execGetPos s
  | .getStatus => Sys2Proof.Machine.execGetStatus s
  | .escStart => Sys2Proof.Machine.execEscStart s
  | .escBytein => Sys2Proof.Machine.execEscBytein s

end Sys2Proof.Machine
end

