-- ==== Sys2Proof/Machine/Step.lean ====
section
/-! DEFINITION. One step of the block: it takes the next input (10_state R20, 30_encoding R61). The block
fetches no command from the stream (20_memory R48); commands come from the command port, the head of
`inbox`. -/

namespace Sys2Proof.Machine

/-- A command word is executed by its rule, or answered ILL when it is no command (60_exceptions R162,
R163). -/
def runWord (w : CmdWord) (s : State) : Host.Outcome State Fault Refusal :=
  match decode w with
  | .ok i => exec i s
  | .error _ => .next s.illegal

/-- The host binds a stream and resets (70_reset R182); `LEN <= 2^32 - 1` (00_scope R10). -/
def runBind (bytes : List Byte) (s : State) : Host.Outcome State Fault Refusal :=
  if bytes.length < 2 ^ 32 then .next (s.bindStream bytes).resetRegs else .refused .streamTooLong

/-- One step: with nothing presented the block is idle and its state persists (60_exceptions R173);
otherwise the oldest input is taken from the list and acted on, in one atomic step (00_scope R15). -/
def step (s : State) : Host.Outcome State Fault Refusal :=
  match s.inbox with
  | [] => .next s
  | .command w :: rest => runWord w { s with inbox := rest }
  | .reset :: rest => .next ({ s with inbox := rest } : State).resetRegs
  | .bind bytes :: rest => runBind bytes { s with inbox := rest }

/-- `s` with the command word `w` (its low `nbits` bits) presented next on the command port, so that the
very next step runs it. -/
def State.withFetchWord (s : State) (nbits w : Nat) : State :=
  { s with inbox := .command (BitVec.ofNat 40 (w % 2 ^ nbits)) :: s.inbox }

end Sys2Proof.Machine
end

