-- ==== Sys2Proof/Machine/Assembler.lean ====
section
/-! DEFINITION. The consumer's notation for command words: mnemonics, arguments, comments (30_encoding R69)
and the pseudo-instructions (R70). The block sees only the words. Text is a list of characters. -/

namespace Sys2Proof.Machine

/-- Mnemonic, opcode and ARG form of each command (30_encoding R63). -/
def opcodeMap : List (List Char × BitVec 8 × ArgForm) :=
  [("READ_BIT".toList, 0x01#8, .z), ("READ_BITS".toList, 0x02#8, .n), ("READ_SBITS".toList, 0x03#8, .n),
   ("READ_BYTE".toList, 0x04#8, .z), ("READ_U16".toList, 0x05#8, .z), ("READ_U32".toList, 0x06#8, .z),
   ("READ_S8".toList, 0x07#8, .z), ("READ_S16".toList, 0x08#8, .z), ("READ_S32".toList, 0x09#8, .z),
   ("ALIGN".toList, 0x10#8, .z), ("SKIP".toList, 0x11#8, .u), ("SET_LIM".toList, 0x12#8, .u),
   ("GET_POS".toList, 0x13#8, .z), ("GET_STATUS".toList, 0x14#8, .z), ("ESC_START".toList, 0x20#8, .z),
   ("ESC_BYTEIN".toList, 0x21#8, .z)]

/-- The value of a decimal or hexadecimal digit; the letters in either case (log entry 16). -/
def digitValue (base : Nat) (c : Char) : Option Nat :=
  let n := c.toNat
  let v := if 48 ≤ n ∧ n ≤ 57 then n - 48 else if 65 ≤ n ∧ n ≤ 70 then n - 55
    else if 97 ≤ n ∧ n ≤ 102 then n - 87 else base
  if v < base then some v else none

/-- The number that a run of digits writes, after `acc`. -/
def digitsFrom (base : Nat) : Nat → List Char → Option Nat
  | acc, [] => some acc
  | acc, c :: cs =>
    match digitValue base c with
    | some d => digitsFrom base (acc * base + d) cs
    | none => none

/-- One or more digits that write a number of at most 32 bits. -/
def parseNumber (base : Nat) (cs : List Char) : Option Word :=
  match cs with
  | [] => none
  | _ =>
    match digitsFrom base 0 cs with
    | some v => if v < 2 ^ 32 then some (BitVec.ofNat 32 v) else none
    | none => none

/-- An argument in decimal. -/
def parseDecimal (cs : List Char) : Option Word := parseNumber 10 cs

/-- An argument in decimal or, after `0x`, in hexadecimal. -/
def parseAny (cs : List Char) : Option Word :=
  match cs with
  | '0' :: 'x' :: ds => parseNumber 16 ds
  | _ => parseDecimal cs

/-- The line up to its comment: a `;` starts a comment that runs to the end of the line (30_encoding R69). -/
def stripComment (cs : List Char) : List Char := cs.takeWhile (fun c => c ≠ ';')

/-- The runs of characters that blanks separate, `cur` being the run read so far, reversed (log entry 16). -/
def tokensFrom : List Char → List Char → List (List Char)
  | cur, [] => if cur = [] then [] else [cur.reverse]
  | cur, c :: cs =>
    if c = ' ' ∨ c = '\t' then
      if cur = [] then tokensFrom [] cs else cur.reverse :: tokensFrom [] cs
    else tokensFrom (c :: cur) cs

/-- The pseudo-instructions (30_encoding R70). -/
inductive Pseudo where
  | readU8
  | limOff
  | skipBits (k : BitVec 6)
deriving DecidableEq, Repr

/-- The expansion of a pseudo-instruction; SKIP_BITS k is one for 1 ≤ k ≤ 32 (30_encoding R70). -/
def Pseudo.expand : Pseudo → Option Instr
  | .readU8 => some .readByte
  | .limOff => some (.setLim 0xFFFFFFFF#32)
  | .skipBits k => if 1 ≤ k.toNat ∧ k.toNat ≤ 32 then some (.readBits k) else none

/-- The word of a pseudo-instruction: the word of its expansion, which is all the block sees (R70). -/
def Pseudo.encode (p : Pseudo) : Option CmdWord := p.expand.map Sys2Proof.encode

/-- The word of a mnemonic and its argument text, in its form (30_encoding R69): `(OP << 32) | arg`. An
argument that makes the command illegal is assembled too, as program P4 of 95_test_vectors does. -/
def assembleCommand (op : BitVec 8) (form : ArgForm) (args : List (List Char)) : Option CmdWord :=
  match form, args with
  | .z, [] => some (commandWord op 0#32)
  | .n, [a] => (parseDecimal a).map (commandWord op)
  | .u, [a] => (parseAny a).map (commandWord op)
  | _, _ => none

/-- A pseudo-instruction by its text (30_encoding R70). -/
def assemblePseudo (name : List Char) (args : List (List Char)) : Option CmdWord :=
  if name = "READ_U8".toList ∧ args = [] then Pseudo.encode .readU8
  else if name = "LIM_OFF".toList ∧ args = [] then Pseudo.encode .limOff
  else if name = "SKIP_BITS".toList then
    match args with
    | [a] =>
      match parseDecimal a with
      | some k => if k.toNat ≤ 32 then Pseudo.encode (.skipBits (k.setWidth 6)) else none
      | none => none
    | _ => none
  else none

/-- One line of a program: no word for an empty or comment line, one word for a command, `none` for text
that is neither (30_encoding R69). -/
def assembleLine (line : List Char) : Option (List CmdWord) :=
  match tokensFrom [] (stripComment line) with
  | [] => some []
  | name :: args =>
    match opcodeMap.lookup name with
    | some (op, form) => (assembleCommand op form args).map fun w => [w]
    | none => (assemblePseudo name args).map fun w => [w]

end Sys2Proof.Machine
end

