-- ==== Sys2Proof/Safety.lean ====
section
/-! DEFINITION. The terms in which claims about the block are stated: what stream bits and bytes are still
to be read, what the state is after a command's effect as the rules give it, which words are illegal and
when a command is out of data, and the invariant of the machine. Written from the rules, not from the
meanings: the statements compare the two. -/

namespace Sys2Proof.Machine

/-- MEM[a]. -/
def State.byteAt (s : State) (a : Nat) : Byte := s.mem.read a

/-- Bits c-1 down to 0 of a byte (00_scope R11, 20_memory R45). -/
def byteBits (b : Byte) (c : Nat) : List Bool := (List.range c).reverse.map fun k => b.getLsbD k

/-- The bits of `count` whole bytes from address `a` on, each byte most significant bit first. -/
def State.streamBits (s : State) (a count : Nat) : List Bool :=
  (List.range' a count).flatMap fun k => byteBits (s.byteAt k) 8

/-- The raw bits still readable, next one first: the unconsumed bits of `bitbuf`, then the bytes from `pos`
to E (10_state R26, R27; 20_memory R45). There are AVB of them. -/
def State.rawBits (s : State) : List Bool :=
  byteBits s.bitbuf s.bitcnt.toNat ++ s.streamBits s.pos.toNat (s.effEnd - s.pos.toNat)

/-- A bit field as a number, first bit most significant (20_memory R45). -/
def bitsToNat (bs : List Bool) : Nat := bs.foldl (fun v b => 2 * v + b.toNat) 0

/-- How many bytes a read of `n` bits fetches: `max(0, ceil((n - bitcnt)/8))` (20_memory R49). -/
def State.bytesFor (s : State) (n : Nat) : Nat := (n - s.bitcnt.toNat + 7) / 8

/-- The registers after a successful raw read of `n` bits (40_raw_bit_reads R81 to R83): `esc` clear, the
bytes needed are fetched, the last of them is in `bitbuf`, its unread bits are counted by `bitcnt`. -/
def State.afterBits (s : State) (n : Nat) : State :=
  { s with
    esc := false
    pos := BitVec.ofNat 32 (s.pos.toNat + s.bytesFor n)
    bitbuf := if n ≤ s.bitcnt.toNat then s.bitbuf else s.byteAt (s.pos.toNat + s.bytesFor n - 1)
    bitcnt := if n ≤ s.bitcnt.toNat then BitVec.ofNat 4 (s.bitcnt.toNat - n)
      else BitVec.ofNat 4 (8 * s.bytesFor n - (n - s.bitcnt.toNat)) }

/-- The registers after `k` whole bytes are passed over (41_raw_byte_reads R100, 42_stream_control R122). -/
def State.afterBytes (s : State) (k : Nat) : State :=
  { s with esc := false, bitcnt := 0#4, pos := BitVec.ofNat 32 (s.pos.toNat + k) }

/-- The response OK with data. -/
def State.answered (s : State) (v : Word) : State := { s with resp := some ⟨.ok, v⟩ }

/-- The state after a raw-path command that lacks its data (40_raw_bit_reads R84): RDATA is a free value. -/
def State.exhausted (s : State) : State :=
  { s with
    pos := BitVec.ofNat 32 (max s.pos.toNat s.effEnd), bitcnt := 0#4, esc := false, eos := true
    resp := some ⟨.exh, Config.draw32 s.draws⟩, draws := s.draws + 1 }

/-- The state after an illegal command (60_exceptions R162). -/
def State.rejected (s : State) : State := { s with ill := true, resp := some ⟨.ill, 0#32⟩ }

/-- The opcodes of the Z-form commands (30_encoding R63). -/
def zOpcodes : List (BitVec 8) :=
  [0x01#8, 0x04#8, 0x05#8, 0x06#8, 0x07#8, 0x08#8, 0x09#8, 0x10#8, 0x13#8, 0x14#8, 0x20#8, 0x21#8]

/-- The opcodes of R63. -/
def opcodes : List (BitVec 8) := zOpcodes ++ [0x02#8, 0x03#8, 0x11#8, 0x12#8]

/-- The command words that are illegal in a state whose `esc` is the argument (60_exceptions R162). -/
def IllegalWord (w : CmdWord) (esc : Bool) : Prop :=
  let op := w.extractLsb' 32 8
  let arg := w.extractLsb' 0 32
  let n := (w.extractLsb' 0 6).toNat
  op ∉ opcodes
  ∨ (op ∈ zOpcodes ∧ arg ≠ 0#32)
  ∨ ((op = 0x02#8 ∨ op = 0x03#8) ∧ w.extractLsb' 6 26 ≠ 0#26)
  ∨ (op = 0x02#8 ∧ 32 < n)
  ∨ (op = 0x03#8 ∧ (n = 0 ∨ 32 < n))
  ∨ (op = 0x21#8 ∧ esc = false)

/-- When a command is out of data: the table of 60_exceptions R161. -/
def OutOfData (i : Instr) (s : State) : Prop :=
  match i with
  | .readBit => s.avb < 1
  | .readBits n => s.avb < n.toNat
  | .readSbits n => s.avb < n.toNat
  | .readByte => s.pos.toNat + 1 > s.effEnd
  | .readS8 => s.pos.toNat + 1 > s.effEnd
  | .readU16 => s.pos.toNat + 2 > s.effEnd
  | .readS16 => s.pos.toNat + 2 > s.effEnd
  | .readU32 => s.pos.toNat + 4 > s.effEnd
  | .readS32 => s.pos.toNat + 4 > s.effEnd
  | .skip n => s.pos.toNat + n.toNat > s.effEnd
  | .align => False
  | .setLim _ => False
  | .getPos => False
  | .getStatus => False
  | .escStart => False
  | .escBytein => False

/-- The raw-path commands (40_raw_bit_reads R80). -/
def isRawPath : Instr → Bool
  | .readBit => true
  | .readBits _ => true
  | .readSbits _ => true
  | .readByte => true
  | .readU16 => true
  | .readU32 => true
  | .readS8 => true
  | .readS16 => true
  | .readS32 => true
  | .align => true
  | .skip _ => true
  | .setLim _ => false
  | .getPos => false
  | .getStatus => false
  | .escStart => false
  | .escBytein => false

/-- The commands that only set the limit or observe (42_stream_control R120). -/
def isControl : Instr → Bool
  | .setLim _ => true
  | .getPos => true
  | .getStatus => true
  | .readBit => false
  | .readBits _ => false
  | .readSbits _ => false
  | .readByte => false
  | .readU16 => false
  | .readU32 => false
  | .readS8 => false
  | .readS16 => false
  | .readS32 => false
  | .align => false
  | .skip _ => false
  | .escStart => false
  | .escBytein => false

/-- The raw reads of one or more bits, and SKIP of one or more bytes: what must fail once nothing is left
(40_raw_bit_reads R84). -/
def needsData : Instr → Bool
  | .readBit => true
  | .readBits n => decide (1 ≤ n.toNat)
  | .readSbits n => decide (1 ≤ n.toNat)
  | .readByte => true
  | .readU16 => true
  | .readU32 => true
  | .readS8 => true
  | .readS16 => true
  | .readS32 => true
  | .skip n => decide (1 ≤ n.toNat)
  | .align => false
  | .setLim _ => false
  | .getPos => false
  | .getStatus => false
  | .escStart => false
  | .escBytein => false

/-- The raw-path commands that start at a bit position; the others align first (20_memory R47). -/
def isBitRead : Instr → Bool
  | .readBit => true
  | .readBits _ => true
  | .readSbits _ => true
  | .readByte => false
  | .readU16 => false
  | .readU32 => false
  | .readS8 => false
  | .readS16 => false
  | .readS32 => false
  | .align => false
  | .skip _ => false
  | .setLim _ => false
  | .getPos => false
  | .getStatus => false
  | .escStart => false
  | .escBytein => false

/-- How many raw bits a raw-path command reads or passes over when it answers OK, those that aligning drops
apart (20_memory R49). -/
def rawWidth : Instr → Nat
  | .readBit => 1
  | .readBits n => n.toNat
  | .readSbits n => n.toNat
  | .readByte => 8
  | .readS8 => 8
  | .readU16 => 16
  | .readS16 => 16
  | .readU32 => 32
  | .readS32 => 32
  | .skip n => 8 * n.toNat
  | .align => 0
  | .setLim _ => 0
  | .getPos => 0
  | .getStatus => 0
  | .escStart => 0
  | .escBytein => 0

/-- The raw bits that stand before a raw-path command: every bit of every byte, 0xFF or not, and for a bit
read those left in `bitbuf` first. -/
def State.rawQueue (s : State) (i : Instr) : List Bool :=
  if isBitRead i then s.rawBits else s.streamBits s.pos.toNat (s.effEnd - s.pos.toNat)

/-- How many bytes a command that answers OK takes from MEM, where the escape path has `E - pos` left:
the table of 20_memory R49, with SKIP's bytes passed over. -/
def bytesTaken (i : Instr) (s : State) : Nat :=
  match i with
  | .readBit => s.bytesFor 1
  | .readBits n => s.bytesFor n.toNat
  | .readSbits n => s.bytesFor n.toNat
  | .readByte => 1
  | .readS8 => 1
  | .readU16 => 2
  | .readS16 => 2
  | .readU32 => 4
  | .readS32 => 4
  | .skip n => n.toNat
  | .escStart => min 2 (s.effEnd - s.pos.toNat)
  | .escBytein => if s.atMarker then 0 else min 1 (s.effEnd - s.pos.toNat)
  | .align => 0
  | .setLim _ => 0
  | .getPos => 0
  | .getStatus => 0

/-- The same machine with another stream bound that is as long. -/
def State.withMem (s : State) (m : Memory) : State := { s with mem := m }

/-- The readable bytes of `s` and of `m` agree: the two streams may differ only at or beyond E. -/
def AgreeBelowE (s : State) (m : Memory) : Prop := ∀ a, a < s.effEnd → m.read a = s.mem.read a

/-- Two states that differ at most in `bitbuf` while `bitcnt = 0` and in `b0` and `b1` while `esc = 0`,
the contents that no response depends on (10_state R27, R28). -/
def SameLive (s t : State) : Prop :=
  t = { s with bitbuf := t.bitbuf, b0 := t.b0, b1 := t.b1 }
    ∧ (s.bitcnt ≠ 0#4 → t.bitbuf = s.bitbuf)
    ∧ (s.esc = true → t.b0 = s.b0 ∧ t.b1 = s.b1)

/-- What every state that the block can be in meets. -/
structure State.Inv (s : State) : Prop where
  /-- "Every command keeps `pos <= LEN`" (10_state R23). -/
  pos_le_len : s.pos.toNat ≤ s.len.toNat
  /-- "`0 <= bitcnt <= 7`" (10_state R27). -/
  bitcnt_le_seven : s.bitcnt.toNat ≤ 7
  /-- "When `bitcnt > 0`, `bitbuf = MEM[pos-1]`" (10_state R27). -/
  bitbuf_last_byte : s.bitcnt ≠ 0#4 → 0 < s.pos.toNat ∧ s.bitbuf = s.byteAt (s.pos.toNat - 1)
  /-- While the escape path is active no raw bits are pending (43_escape_path R142, 40_raw_bit_reads R83). -/
  esc_aligned : s.esc = true → s.bitcnt = 0#4
  /-- While the escape path is active and no fill byte was ever supplied, `b0` and `b1` are the last two
  bytes before `pos` (43_escape_path R141, R146). -/
  lookahead : s.esc = true → s.fill = false →
    2 ≤ s.pos.toNat ∧ s.b0 = s.byteAt (s.pos.toNat - 2) ∧ s.b1 = s.byteAt (s.pos.toNat - 1)
  /-- While the escape path is active `b1` is the byte before `pos`, or 0xFF with `fill` set: a fill byte, which
  the state does not tell from a stream byte 0xFF (43_escape_path R141, R146). -/
  lookahead_or_fill : s.esc = true →
    (s.b1 = 0xFF#8 ∧ s.fill = true) ∨ (1 ≤ s.pos.toNat ∧ s.b1 = s.byteAt (s.pos.toNat - 1))
  /-- A failed raw read leaves `eos` set, so EXH is never the last response with `eos` clear
  (40_raw_bit_reads R84, 10_state R29). -/
  exh_sticky : ∀ d, s.resp = some ⟨.exh, d⟩ → s.eos = true
  /-- The stream's memory is in canonical form and lists no address at or beyond LEN. -/
  mem_wf : s.mem.wf s.len.toNat = true

/-- The state after `k` steps, or the first stop: a run of the block is the sequence of commands the consumer
issued (70_reset R191). -/
def runFor : Nat → State → Host.Outcome State Fault Refusal
  | 0, s => .next s
  | k + 1, s =>
    match step s with
    | .next t => runFor k t
    | .fault f => .fault f
    | .refused r => .refused r

/-- On every command word with opcode `op` and an argument that is `bad`, a step answers ILL and changes
nothing else but `ill` (60_exceptions R162). -/
def AnswersIll (op : BitVec 8) (bad : Word → Prop) : Prop :=
  ∀ (s : State) (rest : List Input) (arg : Word), bad arg →
    s.inbox = .command (commandWord op arg) :: rest →
    step s = .next ({ s with inbox := rest } : State).rejected

/-- `t` holds a response to what was presented in `s` that 30_encoding R64 allows: CODE is 0, 1 or 2, an
EXH has a free RDATA, an ILL has RDATA 0. -/
def CodedResponse (s t : State) : Prop := ∃ r, t.resp = some r ∧ r.word.extractLsb' 0 32 = r.rdata
  ∧ ((r.code = .ok ∧ r.word.extractLsb' 32 2 = 0#2)
    ∨ (r.code = .exh ∧ r.word.extractLsb' 32 2 = 1#2 ∧ r.rdata = Config.draw32 s.draws)
    ∨ (r.code = .ill ∧ r.word.extractLsb' 32 2 = 2#2 ∧ r.rdata = 0x00000000#32))

/-- Two commands complete with the same CODE, with the same value where that is OK, and in the same `pos`
(20_memory R46). On EXH the values are free and nothing is said of them. -/
def AgreeWhereOk (x y : Host.Outcome State Fault Refusal) : Prop := ∃ t u r q,
  x = .next t ∧ y = .next u ∧ t.resp = some r ∧ u.resp = some q
    ∧ r.code = q.code ∧ (r.code = .ok → r.rdata = q.rdata) ∧ t.pos = u.pos

/-- A whole rule of a byte read (41_raw_byte_reads R101 to R106): the word of `i` is `op` with ARG = 0; with
`k` bytes readable it passes over them and answers `value`; with fewer it fails through FailRaw; with
another ARG it is illegal. -/
def ByteReadRule (i : Instr) (op : BitVec 8) (k : Nat) (value : State → Nat → Word) : Prop :=
  decode (commandWord op 0#32) = .ok i
  ∧ (∀ s : State, s.pos.toNat + k ≤ s.effEnd →
      exec i s = .next ((s.afterBytes k).answered (value s s.pos.toNat)))
  ∧ (∀ s : State, s.pos.toNat + k > s.effEnd → exec i s = .next s.exhausted)
  ∧ AnswersIll op (fun arg => arg ≠ 0#32)

end Sys2Proof.Machine
end

