-- ==== Sys2Proof/Certificates/Slice0/Obligations.lean ====
section
/-! DEFINITION. The statements about the block. Each docstring names the rule of the spec it formalises. A
statement whose docstring says that a clause is the model's choice names the log entry. `s.exhausted`,
`s.rejected`, `s.answered v`, `s.afterBits n` and `s.afterBytes k` (Safety.lean) write out whole states, so an
equality with one of them says what changes and that every other field stays. -/

open Sys2Proof Sys2Proof.Machine

/-- R63: which words each command has, row by row, and that an opcode not listed is no command. -/
def Obligations.DecodeMatchesOpcodeMap : Prop := ∀ w : CmdWord,
  (decode w = .ok .readBit ↔ w = 0x01#40 <<< 32)
  ∧ (∀ n, decode w = .ok (.readBits n) ↔
      w.extractLsb' 6 34 = 0x02#34 <<< 26 ∧ w.extractLsb' 0 6 = n ∧ n.toNat ≤ 32)
  ∧ (∀ n, decode w = .ok (.readSbits n) ↔
      w.extractLsb' 6 34 = 0x03#34 <<< 26 ∧ w.extractLsb' 0 6 = n ∧ 1 ≤ n.toNat ∧ n.toNat ≤ 32)
  ∧ (decode w = .ok .readByte ↔ w = 0x04#40 <<< 32)
  ∧ (decode w = .ok .readU16 ↔ w = 0x05#40 <<< 32)
  ∧ (decode w = .ok .readU32 ↔ w = 0x06#40 <<< 32)
  ∧ (decode w = .ok .readS8 ↔ w = 0x07#40 <<< 32)
  ∧ (decode w = .ok .readS16 ↔ w = 0x08#40 <<< 32)
  ∧ (decode w = .ok .readS32 ↔ w = 0x09#40 <<< 32)
  ∧ (decode w = .ok .align ↔ w = 0x10#40 <<< 32)
  ∧ (∀ n, decode w = .ok (.skip n) ↔ w.extractLsb' 32 8 = 0x11#8 ∧ w.extractLsb' 0 32 = n)
  ∧ (∀ a, decode w = .ok (.setLim a) ↔ w.extractLsb' 32 8 = 0x12#8 ∧ w.extractLsb' 0 32 = a)
  ∧ (decode w = .ok .getPos ↔ w = 0x13#40 <<< 32)
  ∧ (decode w = .ok .getStatus ↔ w = 0x14#40 <<< 32)
  ∧ (decode w = .ok .escStart ↔ w = 0x20#40 <<< 32)
  ∧ (decode w = .ok .escBytein ↔ w = 0x21#40 <<< 32)
  ∧ (w.extractLsb' 32 8 ∉ opcodes → ∃ r, decode w = .error r)

/-- R60, R62, R63: decoding the word of a command gives the command back, with every operand. -/
def Obligations.DecodeOfEncode : Prop := ∀ i : Instr, i.wf = true → decode (encode i) = .ok i

/-- R60, R63, R66: a word that decodes is the word of that command, and the command is well formed: no bit
of a word is ignored. -/
def Obligations.EncodeOfDecode : Prop :=
  ∀ (w : CmdWord) (i : Instr), decode w = .ok i → i.wf = true ∧ encode i = w

/-- R63, R69: a few words written out from the map, one of each form and family, and rejected ones. -/
def Obligations.WrittenWordsDecode : Prop :=
  decode 0x0200000005#40 = .ok (.readBits 5#6) ∧ decode 0x0500000000#40 = .ok .readU16
  ∧ decode 0x11FFFFFFFF#40 = .ok (.skip 0xFFFFFFFF#32) ∧ decode 0x2100000000#40 = .ok .escBytein
  ∧ decode 0x0A00000000#40 = .error .unassignedOpcode ∧ decode 0x1300000001#40 = .error .argNotZero
  ∧ decode 0x0200000040#40 = .error .reservedArgBits ∧ decode 0x0300000000#40 = .error .countOutOfRange

/-- R70: the pseudo-instructions, their expansions and their words. -/
def Obligations.PseudoInstructionsExpand : Prop :=
  (Pseudo.readU8.expand = some .readByte ∧ Pseudo.readU8.encode = some 0x0400000000#40)
  ∧ (Pseudo.limOff.expand = some (.setLim 0xFFFFFFFF#32) ∧ Pseudo.limOff.encode = some 0x12FFFFFFFF#40)
  ∧ (∀ k : BitVec 6, 1 ≤ k.toNat → k.toNat ≤ 32 → (Pseudo.skipBits k).expand = some (.readBits k)
      ∧ (Pseudo.skipBits k).encode = some (0x0200000000#40 ||| k.setWidth 40))

/-- R69: a `;` starts a comment that runs to the end of the line, whatever stands before and after it, and the
rule's own example. -/
def Obligations.AssemblerIgnoresComments : Prop :=
  (∀ l c : List Char, assembleLine (l ++ ';' :: c) = assembleLine l)
  ∧ assembleLine "READ_BITS 5".toList = some [0x0200000005#40]

/-- R32: the value of every register after reset, and of STATUS. -/
def Obligations.ResetRegisterValues : Prop :=
  State.reset.pos = 0#32 ∧ State.reset.lim = 0xFFFFFFFF#32 ∧ State.reset.bitbuf = 0x00#8
  ∧ State.reset.bitcnt = 0#4 ∧ State.reset.b0 = 0x00#8 ∧ State.reset.b1 = 0x00#8
  ∧ State.reset.esc = false ∧ State.reset.eos = false ∧ State.reset.fill = false
  ∧ State.reset.ill = false ∧ State.reset.status = 0x00000000#32

/-- R180: reset between commands gives every register its reset value, reads nothing and gives no response
(`resp` is none; log entry 8). The stream stays bound. -/
def Obligations.ResetInputRestoresRegisters : Prop := ∀ (s : State) (rest : List Input),
  s.inbox = .reset :: rest → step s = .next { s with
    pos := 0#32, lim := 0xFFFFFFFF#32, bitbuf := 0#8, bitcnt := 0#4, b0 := 0#8, b1 := 0#8
    esc := false, eos := false, fill := false, ill := false, resp := none, inbox := rest }

/-- R182, R183: binding a stream and resetting makes exactly its bytes readable and restores the registers.
That the two host actions are one input is the model's choice (log entry 4). -/
def Obligations.BindMakesStreamReadable : Prop :=
  ∀ (s : State) (bytes : List Byte) (rest : List Input), s.inbox = .bind bytes :: rest →
    bytes.length < 2 ^ 32 → ∃ t, step s = .next t
      ∧ t.len.toNat = bytes.length ∧ (∀ a (h : a < bytes.length), t.byteAt a = bytes[a])
      ∧ t.mem.wf t.len.toNat = true
      ∧ t.pos = 0#32 ∧ t.lim = 0xFFFFFFFF#32 ∧ t.bitcnt = 0#4 ∧ t.bitbuf = 0#8 ∧ t.b0 = 0#8
      ∧ t.b1 = 0#8 ∧ t.esc = false ∧ t.eos = false ∧ t.fill = false ∧ t.ill = false
      ∧ t.resp = none ∧ t.inbox = rest

/-- R10, D9: a stream of 2^32 bytes or more is not modelled; the step stops with that name (log entry 14). -/
def Obligations.TooLongStreamRefused : Prop :=
  ∀ (s : State) (bytes : List Byte) (rest : List Input), s.inbox = .bind bytes :: rest →
    2 ^ 32 ≤ bytes.length → step s = .refused .streamTooLong

/-- R20, R173: with nothing presented the block is idle and its state persists unchanged. -/
def Obligations.IdleKeepsState : Prop := ∀ s : State, s.inbox = [] → step s = .next s

/-- R61, R15: a step on a presented word that decodes runs that command, whole, and takes the word from the
port; nothing else is added around it. -/
def Obligations.StepRunsDecodedCommand : Prop :=
  ∀ (s : State) (w : CmdWord) (rest : List Input) (i : Instr), s.inbox = .command w :: rest →
    decode w = .ok i → step s = exec i { s with inbox := rest }

/-- R162: an illegal command word, by any of the six conditions, sets `ill`, answers ILL with 0 and changes no
other state. -/
def Obligations.IllegalWordOnlySetsIll : Prop :=
  ∀ (s : State) (w : CmdWord) (rest : List Input), s.inbox = .command w :: rest →
    IllegalWord w s.esc → step s = .next { s with
      inbox := rest, ill := true, resp := some ⟨.ill, 0x00000000#32⟩ }

/-- R162, R163: no other word is answered ILL, so legality is decided from the word and `esc` alone. -/
def Obligations.IllOnlyForIllegalWords : Prop :=
  ∀ (s : State) (w : CmdWord) (rest : List Input) (t : State) (d : Word),
    s.inbox = .command w :: rest → step s = .next t → t.resp = some ⟨.ill, d⟩ → IllegalWord w s.esc

/-- R64: every command, and every word presented, is answered with one response word: its CODE is 0, 1 or 2,
an EXH has a free RDATA and an ILL has RDATA 0. -/
def Obligations.EveryCommandIsAnswered : Prop :=
  (∀ (i : Instr) (s : State), ∃ t, exec i s = .next t ∧ CodedResponse s t)
  ∧ (∀ (s : State) (w : CmdWord) (rest : List Input), s.inbox = .command w :: rest →
      ∃ t, step s = .next t ∧ t.inbox = rest ∧ CodedResponse s t)

/-- R161: a command answers EXH exactly under the table's condition, and then always through FailRaw. -/
def Obligations.ExhExactlyWhenOutOfData : Prop := ∀ (i : Instr) (s : State), i.wf = true →
  (OutOfData i s → exec i s = .next s.exhausted)
  ∧ (∀ t d, exec i s = .next t → t.resp = some ⟨.exh, d⟩ → OutOfData i s)

/-- R84: after a failure no raw bit is left; then every command but SET_LIM leaves it so, a raw read of one
or more bits fails again, and SET_LIM ends it exactly when it raises E above `pos`; `eos` stays set. -/
def Obligations.ExhaustionIsStable : Prop :=
  (∀ s : State, s.exhausted.avb = 0 ∧ s.exhausted.eos = true)
  ∧ (∀ (s : State) (i : Instr), s.avb = 0 → i.wf = true → (∀ a, i ≠ .setLim a) →
      ∃ t, exec i s = .next t ∧ t.avb = 0 ∧ (s.eos = true → t.eos = true)
        ∧ (needsData i = true → t = s.exhausted))
  ∧ (∀ (s : State) (a : Word), s.avb = 0 → ∃ t, exec (.setLim a) s = .next t ∧ t.eos = s.eos
      ∧ (0 < t.avb ↔ s.pos.toNat < min a.toNat s.len.toNat))

/-- R85: READ_BIT, whole: its word, the bit from `bitbuf` or from the next byte, EXH, ILL. -/
def Obligations.ReadBitRule : Prop :=
  decode 0x0100000000#40 = .ok .readBit
  ∧ (∀ s : State, s.bitcnt ≠ 0#4 → exec .readBit s = .next { s with
      esc := false, bitcnt := s.bitcnt - 1#4
      resp := some ⟨.ok, if s.bitbuf.getLsbD (s.bitcnt.toNat - 1) then 1#32 else 0#32⟩ })
  ∧ (∀ s : State, s.bitcnt = 0#4 → s.pos.toNat < s.effEnd → exec .readBit s = .next { s with
      esc := false, pos := s.pos + 1#32, bitbuf := s.byteAt s.pos.toNat, bitcnt := 7#4
      resp := some ⟨.ok, if (s.byteAt s.pos.toNat).getLsbD 7 then 1#32 else 0#32⟩ })
  ∧ (∀ s : State, s.avb < 1 → exec .readBit s = .next s.exhausted)
  ∧ AnswersIll 0x01#8 (fun arg => arg ≠ 0#32)

/-- R86: READ_BITS n, whole: its words, the field, the case n = 0, EXH, ILL. -/
def Obligations.ReadBitsRule : Prop :=
  (∀ n : BitVec 6, n.toNat ≤ 32 → decode (0x0200000000#40 ||| n.setWidth 40) = .ok (.readBits n))
  ∧ (∀ (s : State) (n : BitVec 6), n.toNat ≤ 32 → n.toNat ≤ s.avb →
      exec (.readBits n) s = .next ((s.afterBits n.toNat).answered
        (BitVec.ofNat 32 (bitsToNat (s.rawBits.take n.toNat))))
      ∧ bitsToNat (s.rawBits.take n.toNat) < 2 ^ n.toNat)
  ∧ (∀ s : State, exec (.readBits 0#6) s = .next { s with esc := false, resp := some ⟨.ok, 0#32⟩ })
  ∧ (∀ (s : State) (n : BitVec 6), n.toNat ≤ 32 → s.avb < n.toNat →
      exec (.readBits n) s = .next s.exhausted)
  ∧ AnswersIll 0x02#8 (fun arg => arg.extractLsb' 6 26 ≠ 0#26 ∨ 32 < (arg.extractLsb' 0 6).toNat)

/-- R87: READ_SBITS n, whole: its words, the sign-extended field, EXH, ILL. -/
def Obligations.ReadSbitsRule : Prop :=
  (∀ n : BitVec 6, 1 ≤ n.toNat → n.toNat ≤ 32 →
      decode (0x0300000000#40 ||| n.setWidth 40) = .ok (.readSbits n))
  ∧ (∀ (s : State) (n : BitVec 6), 1 ≤ n.toNat → n.toNat ≤ 32 → n.toNat ≤ s.avb →
      exec (.readSbits n) s = .next ((s.afterBits n.toNat).answered
        ((BitVec.ofNat n.toNat (bitsToNat (s.rawBits.take n.toNat))).signExtend 32)))
  ∧ (∀ (s : State) (n : BitVec 6), 1 ≤ n.toNat → n.toNat ≤ 32 → s.avb < n.toNat →
      exec (.readSbits n) s = .next s.exhausted)
  ∧ AnswersIll 0x03#8 (fun arg => arg.extractLsb' 6 26 ≠ 0#26
      ∨ (arg.extractLsb' 0 6).toNat = 0 ∨ 32 < (arg.extractLsb' 0 6).toNat)

/-- R26, R45, R81, R82: the raw bits are a queue of AVB bits, and READ_BITS n takes the first n of it. -/
def Obligations.RawBitsAreAQueue : Prop :=
  (∀ s : State, s.rawBits.length = s.avb)
  ∧ (∀ (s : State) (n : BitVec 6), n.toNat ≤ 32 → n.toNat ≤ s.avb → ∃ t,
      exec (.readBits n) s = .next t ∧ t.rawBits = s.rawBits.drop n.toNat
      ∧ t.resp = some ⟨.ok, BitVec.ofNat 32 (bitsToNat (s.rawBits.take n.toNat))⟩)

/-- R88: splitting a field gives the same bits and ends in the same `pos` and `bitcnt`. -/
def Obligations.SplitFieldSameBits : Prop := ∀ (s : State) (a b : BitVec 6),
  a.toNat + b.toNat ≤ 32 → a.toNat + b.toNat ≤ s.avb →
  ∃ s₁ s₂ t hi lo v, exec (.readBits a) s = .next s₁ ∧ exec (.readBits b) s₁ = .next s₂
    ∧ exec (.readBits (a + b)) s = .next t
    ∧ s₁.resp = some ⟨.ok, hi⟩ ∧ s₂.resp = some ⟨.ok, lo⟩ ∧ t.resp = some ⟨.ok, v⟩
    ∧ hi.toNat * 2 ^ b.toNat + lo.toNat = v.toNat ∧ s₂.pos = t.pos ∧ s₂.bitcnt = t.bitcnt

/-- R89: a successful raw bit read of n bits lowers AVB by exactly n and changes no flag; a failed one sets
AVB to 0 and sets `eos`. -/
def Obligations.RawBitReadsLowerAvb : Prop :=
  ∀ (s : State) (i : Instr) (n : Nat),
    ((i = .readBit ∧ n = 1) ∨ ∃ k : BitVec 6, k.toNat = n ∧ n ≤ 32
      ∧ (i = .readBits k ∨ (i = .readSbits k ∧ 1 ≤ n))) →
    ∃ t r, exec i s = .next t ∧ t.resp = some r
      ∧ (n ≤ s.avb → r.code = .ok ∧ t.avb + n = s.avb
        ∧ t.eos = s.eos ∧ t.fill = s.fill ∧ t.ill = s.ill)
      ∧ (s.avb < n → r.code = .exh ∧ t.avb = 0 ∧ t.eos = true)

/-- R46: on aligned data READ_BITS 16, 8 and 32 answer as READ_U16, READ_BYTE and READ_U32 do, with the same
CODE and, where it is OK, the same value, and leave the same `pos`. -/
def Obligations.MixedWidthsAgree : Prop := ∀ s : State, s.bitcnt = 0#4 →
  AgreeWhereOk (exec (.readBits 16#6) s) (exec .readU16 s)
  ∧ AgreeWhereOk (exec (.readBits 8#6) s) (exec .readByte s)
  ∧ AgreeWhereOk (exec (.readBits 32#6) s) (exec .readU32 s)

/-- R101, R102, R103, R44: READ_BYTE, READ_U16, READ_U32, whole; multi-byte values are big-endian. -/
def Obligations.UnsignedByteReadRules : Prop :=
  ByteReadRule .readByte 0x04#8 1 (fun s p => (s.byteAt p).setWidth 32)
  ∧ ByteReadRule .readU16 0x05#8 2 (fun s p => (s.byteAt p ++ s.byteAt (p + 1)).setWidth 32)
  ∧ ByteReadRule .readU32 0x06#8 4 (fun s p =>
      s.byteAt p ++ s.byteAt (p + 1) ++ s.byteAt (p + 2) ++ s.byteAt (p + 3))

/-- R104, R105, R106: READ_S8, READ_S16, READ_S32, whole; the top bit of the value is extended. -/
def Obligations.SignedByteReadRules : Prop :=
  ByteReadRule .readS8 0x07#8 1 (fun s p => (s.byteAt p).signExtend 32)
  ∧ ByteReadRule .readS16 0x08#8 2 (fun s p => (s.byteAt p ++ s.byteAt (p + 1)).signExtend 32)
  ∧ ByteReadRule .readS32 0x09#8 4 (fun s p =>
      s.byteAt p ++ s.byteAt (p + 1) ++ s.byteAt (p + 2) ++ s.byteAt (p + 3))

/-- R107: a byte read never succeeds partially; an EXH leaves `pos >= E`, `bitcnt = 0`, `eos = 1`. -/
def Obligations.ByteReadsNeverPartial : Prop := ∀ (s : State) (i : Instr) (k : Nat),
  ((i = .readByte ∨ i = .readS8) ∧ k = 1) ∨ ((i = .readU16 ∨ i = .readS16) ∧ k = 2)
    ∨ ((i = .readU32 ∨ i = .readS32) ∧ k = 4) →
  ∃ t r, exec i s = .next t ∧ t.resp = some r ∧ t.bitcnt = 0#4
    ∧ ((r.code = .ok ∧ s.pos.toNat + k ≤ s.effEnd ∧ t.pos.toNat = s.pos.toNat + k)
      ∨ (r.code = .exh ∧ t.pos.toNat = max s.pos.toNat s.effEnd ∧ t.eos = true))

/-- R121: ALIGN, whole. -/
def Obligations.AlignRule : Prop :=
  decode 0x1000000000#40 = .ok .align
  ∧ (∀ s : State, exec .align s =
      .next { s with esc := false, bitcnt := 0#4, resp := some ⟨.ok, 0#32⟩ })
  ∧ AnswersIll 0x10#8 (fun arg => arg ≠ 0#32)

/-- R122: SKIP n, whole; the sum does not wrap and no argument is illegal. -/
def Obligations.SkipRule : Prop :=
  (∀ n : Word, decode (0x1100000000#40 ||| n.setWidth 40) = .ok (.skip n))
  ∧ (∀ (s : State) (n : Word), s.pos.toNat + n.toNat ≤ s.effEnd →
      exec (.skip n) s = .next { s with
        esc := false, bitcnt := 0#4, pos := s.pos + n, resp := some ⟨.ok, 0#32⟩ })
  ∧ (∀ (s : State) (n : Word), s.pos.toNat + n.toNat > s.effEnd →
      exec (.skip n) s = .next s.exhausted)

/-- R123: SET_LIM a, whole; no argument is illegal, and nothing but `lim` changes. -/
def Obligations.SetLimRule : Prop :=
  (∀ a : Word, decode (0x1200000000#40 ||| a.setWidth 40) = .ok (.setLim a))
  ∧ (∀ (s : State) (a : Word), exec (.setLim a) s =
      .next { s with lim := a, resp := some ⟨.ok, 0#32⟩ })

/-- R124: GET_POS, whole. -/
def Obligations.GetPosRule : Prop :=
  decode 0x1300000000#40 = .ok .getPos
  ∧ (∀ s : State, exec .getPos s = .next { s with resp := some ⟨.ok, s.pos⟩ })
  ∧ AnswersIll 0x13#8 (fun arg => arg ≠ 0#32)

/-- R125, R30: GET_STATUS, whole, and the fields of STATUS. -/
def Obligations.GetStatusRule : Prop :=
  decode 0x1400000000#40 = .ok .getStatus
  ∧ (∀ s : State, ∃ v : Word, exec .getStatus s = .next { s with resp := some ⟨.ok, v⟩ }
      ∧ v.getLsbD 0 = s.eos ∧ v.getLsbD 1 = s.fill ∧ v.getLsbD 2 = s.ill ∧ v.getLsbD 3 = s.esc
      ∧ v.extractLsb' 4 4 = s.bitcnt ∧ v.extractLsb' 8 24 = 0#24)
  ∧ AnswersIll 0x14#8 (fun arg => arg ≠ 0#32)

/-- R126: GET_POS then SKIP reaches a segment end at or after `pos`; bytes before `pos` cannot be recovered,
since no command moves `pos` back. -/
def Obligations.SegmentEndReached : Prop :=
  (∀ (s : State) (e : Word), s.pos.toNat ≤ e.toNat → e.toNat ≤ s.effEnd → ∃ t u p,
      exec .getPos s = .next t ∧ t.resp = some ⟨.ok, p⟩ ∧ exec (.skip (e - p)) t = .next u
      ∧ u.pos = e ∧ u.bitcnt = 0#4 ∧ u.resp = some ⟨.ok, 0#32⟩)
  ∧ (∀ (i : Instr) (s t : State), exec i s = .next t → s.pos.toNat ≤ t.pos.toNat)

/-- R21, R23: every command keeps `pos <= LEN` and only advances `pos`. -/
def Obligations.PosAdvancesWithinStream : Prop := ∀ (i : Instr) (s : State),
  s.pos.toNat ≤ s.len.toNat → ∃ t, exec i s = .next t
    ∧ s.pos.toNat ≤ t.pos.toNat ∧ t.pos.toNat ≤ t.len.toNat

/-- R120, R188: every raw-path command clears `esc`, failing or not; SET_LIM, GET_POS and GET_STATUS keep it
and `b0` and `b1`; only ESC_START sets it; while it is clear ESC_BYTEIN is illegal. -/
def Obligations.EscapeFlagRules : Prop :=
  (∀ (i : Instr) (s : State), isRawPath i = true → i.wf = true →
      ∃ t, exec i s = .next t ∧ t.esc = false)
  ∧ (∀ (i : Instr) (s : State), isControl i = true →
      ∃ t, exec i s = .next t ∧ t.esc = s.esc ∧ t.b0 = s.b0 ∧ t.b1 = s.b1)
  ∧ (∀ s : State, ∃ t, exec .escStart s = .next t ∧ t.esc = true)
  ∧ (∀ (i : Instr) (s : State), s.esc = false → i ≠ .escStart → ∃ t, exec i s = .next t ∧ t.esc = false)
  ∧ (∀ s : State, s.esc = false → exec .escBytein s = .next s.rejected)

/-- R142, R141: ESC_START, whole, by how many bytes are readable; CT is 8 and MARKER 0. -/
def Obligations.EscStartRule : Prop :=
  decode 0x2000000000#40 = .ok .escStart
  ∧ (∀ s : State, s.pos.toNat + 2 ≤ s.effEnd → exec .escStart s = .next { s with
      bitcnt := 0#4, b0 := s.byteAt s.pos.toNat, b1 := s.byteAt (s.pos.toNat + 1)
      pos := s.pos + 2#32, esc := true
      resp := some ⟨.ok, 0#18 ++ 0#1 ++ 0#1 ++ 8#4 ++ s.byteAt s.pos.toNat⟩ })
  ∧ (∀ s : State, s.pos.toNat + 1 = s.effEnd → exec .escStart s = .next { s with
      bitcnt := 0#4, b0 := s.byteAt s.pos.toNat, b1 := 0xFF#8
      pos := s.pos + 1#32, fill := true, esc := true
      resp := some ⟨.ok, 0#18 ++ 1#1 ++ 0#1 ++ 8#4 ++ s.byteAt s.pos.toNat⟩ })
  ∧ (∀ s : State, s.effEnd ≤ s.pos.toNat → exec .escStart s = .next { s with
      bitcnt := 0#4, b0 := 0xFF#8, b1 := 0xFF#8, fill := true
      esc := true, resp := some ⟨.ok, 0#18 ++ 1#1 ++ 0#1 ++ 8#4 ++ 0xFF#8⟩ })
  ∧ AnswersIll 0x20#8 (fun arg => arg ≠ 0#32)

/-- R143, R141: ESC_BYTEIN, whole: the marker, the next byte from the stream or the fill byte with CT = 7
after 0xFF and 8 otherwise, ILL while `esc = 0` or with an argument. -/
def Obligations.EscByteinRule : Prop :=
  decode 0x2100000000#40 = .ok .escBytein
  ∧ (∀ s : State, s.esc = true → s.b0 = 0xFF#8 → 0x8F#8 < s.b1 → exec .escBytein s = .next { s with
      resp := some ⟨.ok, 0#18 ++ 0#1 ++ 1#1 ++ 8#4 ++ 0xFF#8⟩ })
  ∧ (∀ s : State, s.esc = true → ¬ (s.b0 = 0xFF#8 ∧ 0x8F#8 < s.b1) → s.pos.toNat < s.effEnd →
      exec .escBytein s = .next { s with
        b0 := s.b1, b1 := s.byteAt s.pos.toNat, pos := s.pos + 1#32
        resp := some ⟨.ok, 0#18 ++ 0#1 ++ 0#1 ++ (if s.b0 = 0xFF#8 then 7#4 else 8#4) ++ s.b1⟩ })
  ∧ (∀ s : State, s.esc = true → ¬ (s.b0 = 0xFF#8 ∧ 0x8F#8 < s.b1) → s.effEnd ≤ s.pos.toNat →
      exec .escBytein s = .next { s with
        b0 := s.b1, b1 := 0xFF#8, fill := true
        resp := some ⟨.ok, 0#18 ++ 1#1 ++ 0#1 ++ (if s.b0 = 0xFF#8 then 7#4 else 8#4) ++ s.b1⟩ })
  ∧ (∀ s : State, s.esc = false → exec .escBytein s = .next s.rejected)
  ∧ AnswersIll 0x21#8 (fun arg => arg ≠ 0#32)

/-- R65: the fields of an escape-path response. -/
def Obligations.EscapeResponseFields : Prop := ∀ (fill marker : Bool) (ct : BitVec 4) (byte : Byte),
  (escData fill marker ct byte).extractLsb' 0 8 = byte
  ∧ (escData fill marker ct byte).extractLsb' 8 4 = ct
  ∧ (escData fill marker ct byte).getLsbD 12 = marker
  ∧ (escData fill marker ct byte).getLsbD 13 = fill
  ∧ (escData fill marker ct byte).extractLsb' 14 18 = 0#18

/-- R144: at a marker every ESC_BYTEIN returns 0x000018FF and changes no state, however many there are; only a
raw-path command, ESC_START or reset ends this. -/
def Obligations.MarkerIsStable : Prop := ∀ s : State, s.esc = true → s.b0 = 0xFF#8 → 0x8F#8 < s.b1 →
  (∀ (k : Nat) (rest : List Input),
      s.inbox = List.replicate (k + 1) (.command 0x2100000000#40) ++ rest →
      runFor (k + 1) s =
        .next { s with inbox := rest, resp := some ⟨.ok, 0x000018FF#32⟩ })
  ∧ (∀ i : Instr, isRawPath i = false ∨ i.wf = false → i ≠ .escStart →
      ∃ t, exec i s = .next t ∧ t.esc = true ∧ t.b0 = 0xFF#8 ∧ t.b1 = s.b1)

/-- R145, while E does not rise (log entry 11): with a fill byte in `b1` and nothing readable, one ESC_BYTEIN
at most advances, then the path is at a marker; it takes no byte at or beyond E. -/
def Obligations.EndOfDataBecomesMarker : Prop := ∀ s : State,
  s.esc = true → s.b1 = 0xFF#8 → s.effEnd ≤ s.pos.toNat →
  ∃ t, exec .escBytein s = .next t ∧ t.esc = true ∧ t.b0 = 0xFF#8 ∧ t.b1 = 0xFF#8 ∧ t.pos = s.pos
    ∧ exec .escBytein t = .next { t with resp := some ⟨.ok, 0x000018FF#32⟩ }

/-- R142, R143, R146: from ESC_START at `p`, k ESC_BYTEINs before any marker and before the end deliver the
bytes at p, p+1, ..., p+k in order, the last with CT = 7 exactly when the byte before it is 0xFF, and `pos`
counts the k+2 bytes taken, the lookahead among them. -/
def Obligations.EscapePathDeliversStream : Prop :=
  ∀ (s : State) (k : Nat) (rest : List Input),
    s.inbox = .command 0x2000000000#40 :: (List.replicate k (.command 0x2100000000#40) ++ rest) →
    s.pos.toNat + k + 2 ≤ s.effEnd →
    (∀ j, j < k → s.byteAt (s.pos.toNat + j) = 0xFF#8 → s.byteAt (s.pos.toNat + j + 1) ≤ 0x8F#8) →
    ∃ t, runFor (k + 1) s = .next t
      ∧ t.b0 = s.byteAt (s.pos.toNat + k) ∧ t.b1 = s.byteAt (s.pos.toNat + k + 1)
      ∧ t.pos.toNat = s.pos.toNat + k + 2 ∧ t.esc = true ∧ t.fill = s.fill ∧ t.inbox = rest
      ∧ t.resp = some ⟨.ok, 0#18 ++ 0#1 ++ 0#1
          ++ (if 0 < k ∧ s.byteAt (s.pos.toNat + k - 1) = 0xFF#8 then 7#4 else 8#4)
          ++ s.byteAt (s.pos.toNat + k)⟩

/-- R147: a raw-path command takes all eight bits of every byte, 0xFF or what follows it: what it answers are
the next bits of the queue as they are, and what it leaves is the queue without them. Then for two READ_BYTEs:
the two bytes, whatever they are. -/
def Obligations.RawPathNeverDestuffs : Prop :=
  (∀ (i : Instr) (s : State), isRawPath i = true → i.wf = true → ¬ OutOfData i s →
    ∃ t v, exec i s = .next t ∧ t.resp = some ⟨.ok, v⟩
      ∧ t.rawBits = (s.rawQueue i).drop (rawWidth i)
      ∧ ((∀ n, i ≠ .skip n) →
          v.toNat % 2 ^ rawWidth i = bitsToNat ((s.rawQueue i).take (rawWidth i))))
  ∧ (∀ s : State, s.pos.toNat + 2 ≤ s.effEnd →
      ∃ t u, exec .readByte s = .next t ∧ exec .readByte t = .next u
        ∧ t.resp = some ⟨.ok, (s.byteAt s.pos.toNat).setWidth 32⟩
        ∧ u.resp = some ⟨.ok, (s.byteAt (s.pos.toNat + 1)).setWidth 32⟩)

/-- R29: what sets each sticky flag, and that no command clears one. -/
def Obligations.StickyFlagsOnlySet : Prop := ∀ (i : Instr) (s : State), ∃ t r,
  exec i s = .next t ∧ t.resp = some r
    ∧ (t.eos = true ↔ s.eos = true ∨ r.code = .exh)
    ∧ (t.ill = true ↔ s.ill = true ∨ r.code = .ill)
    ∧ (t.fill = true ↔ s.fill = true
        ∨ (i = .escStart ∧ s.effEnd < s.pos.toNat + 2)
        ∨ (i = .escBytein ∧ s.esc = true ∧ ¬ (s.b0 = 0xFF#8 ∧ 0x8F#8 < s.b1)
            ∧ s.effEnd ≤ s.pos.toNat))

/-- R24: of the commands only SET_LIM writes `lim`. -/
def Obligations.OnlySetLimWritesLim : Prop := ∀ (i : Instr) (s : State), (∀ a, i ≠ .setLim a) →
  ∃ t, exec i s = .next t ∧ t.lim = s.lim

/-- R42, R43, R50: no command writes the stream: every address reads as before. -/
def Obligations.CommandsKeepStream : Prop := ∀ (i : Instr) (s : State), ∃ t,
  exec i s = .next t ∧ t.mem = s.mem ∧ t.len = s.len ∧ (∀ a, t.byteAt a = s.byteAt a)
    ∧ t.inbox = s.inbox

/-- R49: how many bytes a command that answers OK passes over (`bytesTaken`). -/
def Obligations.BytesTakenPerCommand : Prop := ∀ (i : Instr) (s : State), ∃ t r,
  exec i s = .next t ∧ t.resp = some r
    ∧ (r.code = .ok → t.pos.toNat = s.pos.toNat + bytesTaken i s)

/-- R181: after reset the first raw read takes bit 7 of MEM[0], and ESC_START loads MEM[0] into `b0`. -/
def Obligations.FirstReadAfterReset : Prop := ∀ (s : State) (rest : List Input),
  s.inbox = .reset :: rest → 0 < s.len.toNat → ∃ t u v, step s = .next t
    ∧ exec .readBit t = .next u
    ∧ u.resp = some ⟨.ok, if (s.byteAt 0).getLsbD 7 then 1#32 else 0#32⟩
    ∧ exec .escStart t = .next v ∧ v.b0 = s.byteAt 0

/-- The machine after reset meets the invariant. -/
def Obligations.InvariantAtReset : Prop := State.reset.Inv

/-- R23, R27, R141, R146: the invariant is kept by every step: `pos <= LEN`, `bitcnt <= 7`, `bitbuf` is the byte
before `pos` while bits of it are left, the lookahead is the stream's or a fill byte, the memory is
canonical. -/
def Obligations.StepKeepsInvariant : Prop :=
  ∀ s t : State, s.Inv → step s = .next t → t.Inv

/-- R14, R160, R191: from every state a step goes on: no read outside the stream is ever evaluated, and the one
refusal is a host that binds a stream of 2^32 bytes or more. -/
def Obligations.StepAlwaysGoesOn : Prop := ∀ s : State,
  (∃ t, step s = .next t)
  ∨ (∃ bytes rest, s.inbox = .bind bytes :: rest ∧ 2 ^ 32 ≤ bytes.length
      ∧ step s = .refused .streamTooLong)

/-- R25, R145, R191: no byte at or beyond E is ever looked at: if two streams of the same length agree below
E, a command does the same on both. That an EXH draws one free RDATA in both is the model's choice (log
entry 7). -/
def Obligations.BytesBeyondENeverSeen : Prop := ∀ (i : Instr) (s : State) (m : Memory),
  AgreeBelowE s m → ∃ t, exec i s = .next t ∧ exec i (s.withMem m) = .next (t.withMem m)

/-- R27, R28, D28: the content of `bitbuf` while `bitcnt = 0`, and of `b0` and `b1` while `esc = 0`, has no
effect on any response: states that differ only there stay so, and answer alike. That an EXH draws one free
RDATA in both is the model's choice (log entry 7). -/
def Obligations.DeadContentsNeverSeen : Prop := ∀ (i : Instr) (s u : State), SameLive s u →
  ∃ t v, exec i s = .next t ∧ exec i u = .next v ∧ SameLive t v ∧ t.resp = v.resp

/-- R22: of the commands only ESC_START and ESC_BYTEIN write `b0` and `b1`. That the raw path keeps what it
abandons, where the spec allows zeroing, is the model's choice (log entry 9). -/
def Obligations.OnlyEscapeCommandsWriteLookahead : Prop := ∀ (i : Instr) (s : State),
  i ≠ .escStart → i ≠ .escBytein → ∃ t, exec i s = .next t ∧ t.b0 = s.b0 ∧ t.b1 = s.b1

/-- R185, R145: SET_LIM re-fetches and drops nothing of the lookahead, whichever way `lim` moves. With a fill
byte in `b1`, or a stream byte 0xFF, which R141 does not tell apart, the path is at a marker after at most one
ESC_BYTEIN if `b0` is 0xFF or nothing is readable then. R185 says so without that condition; where `b0` is not
0xFF and E was raised above `pos`, R141 and R143 fetch the byte at `pos`, and the model follows them (log
entry 11). -/
def Obligations.RaisedLimitAfterFill : Prop := ∀ (s : State) (a : Word), s.esc = true → ∃ t u v,
  exec (.setLim a) s = .next t ∧ t.lim = a ∧ t.pos = s.pos ∧ t.b0 = s.b0 ∧ t.b1 = s.b1 ∧ t.esc = true
  ∧ exec .escBytein t = .next u ∧ exec .escBytein u = .next v
  ∧ (s.b1 = 0xFF#8 →
      if s.b0 = 0xFF#8 ∨ min a.toNat s.len.toNat ≤ s.pos.toNat then
        u.b0 = 0xFF#8 ∧ u.b1 = 0xFF#8 ∧ u.esc = true ∧ u.pos = s.pos
          ∧ v = { u with resp := some ⟨.ok, 0x000018FF#32⟩ }
      else
        u.b0 = 0xFF#8 ∧ u.b1 = s.byteAt s.pos.toNat ∧ u.esc = true ∧ u.pos = s.pos + 1#32)
end

