-- ==== Sys2Proof/Laws/Decode.lean ====
section
/-! SUPPORT. The fields of a command word, and what each form of ARG decodes to (30_encoding R60, R62). -/

namespace Sys2Proof

theorem commandWord_getLsbD (op : BitVec 8) (arg : Word) (k : Nat) :
    (commandWord op arg).getLsbD k = if k < 32 then arg.getLsbD k else op.getLsbD (k - 32) := by
  have h := BitVec.getLsbD_append (x := op) (y := arg) (i := k)
  exact h.trans (by split <;> simp_all)

@[simp] theorem opField_commandWord (op : BitVec 8) (arg : Word) : opField (commandWord op arg) = op := by
  apply BitVec.eq_of_getLsbD_eq
  intro k hk
  simp [opField, commandWord_getLsbD, hk]

@[simp] theorem argField_commandWord (op : BitVec 8) (arg : Word) :
    argField (commandWord op arg) = arg := by
  apply BitVec.eq_of_getLsbD_eq
  intro k hk
  simp [argField, commandWord_getLsbD, hk]

/-- `(OP << 32) | ARG` (30_encoding R69). -/
theorem commandWord_eq_or (op : BitVec 8) (arg : Word) :
    commandWord op arg = (op.setWidth 40 <<< 32) ||| arg.setWidth 40 := by
  apply BitVec.eq_of_getLsbD_eq
  intro k hk
  rw [commandWord_getLsbD]
  by_cases h : k < 32
  · simp [h, hk]
  · have h3 : arg.getLsbD k = false := BitVec.getLsbD_of_ge arg k (by omega)
    simp [h, hk, h3]

theorem encode_fields (op : BitVec 8) (arg : Word) :
    opField (commandWord op arg) = op ∧ argField (commandWord op arg) = arg :=
  ⟨opField_commandWord op arg, argField_commandWord op arg⟩

/-- A word is its two fields. -/
theorem commandWord_fields (w : CmdWord) : commandWord (opField w) (argField w) = w := by
  apply BitVec.eq_of_getLsbD_eq
  intro k hk
  rw [commandWord_getLsbD]
  by_cases h : k < 32
  · simp [argField, h]
  · have h1 : 32 + (k - 32) = k := by omega
    have h2 : k - 32 < 8 := by omega
    simp [opField, h, h1, h2]

/-- Decoding a word made of its fields. -/
theorem decode_commandWord (op : BitVec 8) (arg : Word) :
    decode (commandWord op arg) = decodeFields op.toNat arg := by
  rw [decode, opField_commandWord, argField_commandWord]

theorem wf_readBits (n : BitVec 6) : (Instr.readBits n).wf = true ↔ n.toNat ≤ 32 := by
  simp [Instr.wf]

theorem wf_readSbits (n : BitVec 6) :
    (Instr.readSbits n).wf = true ↔ 1 ≤ n.toNat ∧ n.toNat ≤ 32 := by
  simp [Instr.wf]

/-- Form Z accepts ARG = 0 only. -/
theorem decodeZ_ok {i j : Instr} {arg : Word} : decodeZ i arg = .ok j ↔ arg = 0#32 ∧ i = j := by
  unfold decodeZ; split <;> simp_all

theorem decodeN_ok {lo : Nat} {mk : BitVec 6 → Instr} {arg : Word} {j : Instr} :
    decodeN lo mk arg = .ok j ↔ arg.extractLsb' 6 26 = 0#26 ∧
      (lo ≤ (arg.extractLsb' 0 6).toNat ∧ (arg.extractLsb' 0 6).toNat ≤ 32)
      ∧ mk (arg.extractLsb' 0 6) = j := by
  unfold decodeN Config.nMax
  by_cases h : arg.extractLsb' 6 26 = 0#26
  · by_cases hc : lo ≤ (arg.extractLsb' 0 6).toNat ∧ (arg.extractLsb' 0 6).toNat ≤ 32
    · simp only [h, hc, if_true, and_self, true_and]; simp
    · simp only [h, hc, if_true, if_false, false_and, and_false]; simp
  · simp [h]

/-- The count field of an N-form argument, and its reserved bits. -/
@[simp] theorem count_setWidth (n : BitVec 6) : (n.setWidth 32 : Word).extractLsb' 0 6 = n := by
  ext k hk; simp [hk]; omega

@[simp] theorem reserved_setWidth (n : BitVec 6) : (n.setWidth 32 : Word).extractLsb' 6 26 = 0#26 := by
  ext k hk; simp

/-- An N-form argument whose reserved bits are 0 is its count. -/
theorem setWidth_count {arg : Word} (h : arg.extractLsb' 6 26 = 0#26) :
    (arg.extractLsb' 0 6).setWidth 32 = arg := by
  apply BitVec.eq_of_getLsbD_eq
  intro k hk
  by_cases h6 : k < 6
  · simp [h6, hk]
  · have := congrArg (fun v => v.getLsbD (k - 6)) h
    have e : 6 + (k - 6) = k := by omega
    have l : k - 6 < 26 := by omega
    simp [e, l] at this
    simp [h6, this]

end Sys2Proof
end

