-- ==== Sys2Proof/Laws/State.lean ====
section
/-! SUPPORT. What each named update of State leaves in each field. Every proof over the state rewrites with
these and unfolds no update. -/

namespace Sys2Proof.Machine

@[simp] theorem State.respond_pos (s : State) (c : Code) (d : Word) : (s.respond c d).pos = s.pos := rfl
@[simp] theorem State.respond_lim (s : State) (c : Code) (d : Word) : (s.respond c d).lim = s.lim := rfl
@[simp] theorem State.respond_bitbuf (s : State) (c : Code) (d : Word) : (s.respond c d).bitbuf = s.bitbuf := rfl
@[simp] theorem State.respond_bitcnt (s : State) (c : Code) (d : Word) : (s.respond c d).bitcnt = s.bitcnt := rfl
@[simp] theorem State.respond_b0 (s : State) (c : Code) (d : Word) : (s.respond c d).b0 = s.b0 := rfl
@[simp] theorem State.respond_b1 (s : State) (c : Code) (d : Word) : (s.respond c d).b1 = s.b1 := rfl
@[simp] theorem State.respond_esc (s : State) (c : Code) (d : Word) : (s.respond c d).esc = s.esc := rfl
@[simp] theorem State.respond_eos (s : State) (c : Code) (d : Word) : (s.respond c d).eos = s.eos := rfl
@[simp] theorem State.respond_fill (s : State) (c : Code) (d : Word) : (s.respond c d).fill = s.fill := rfl
@[simp] theorem State.respond_ill (s : State) (c : Code) (d : Word) : (s.respond c d).ill = s.ill := rfl
@[simp] theorem State.respond_len (s : State) (c : Code) (d : Word) : (s.respond c d).len = s.len := rfl
@[simp] theorem State.respond_mem (s : State) (c : Code) (d : Word) : (s.respond c d).mem = s.mem := rfl
@[simp] theorem State.respond_inbox (s : State) (c : Code) (d : Word) : (s.respond c d).inbox = s.inbox := rfl
@[simp] theorem State.respond_resp (s : State) (c : Code) (d : Word) : (s.respond c d).resp = some ⟨c, d⟩ := rfl
@[simp] theorem State.respond_draws (s : State) (c : Code) (d : Word) : (s.respond c d).draws = s.draws := rfl
@[simp] theorem State.respond_effEnd (s : State) (c : Code) (d : Word) : (s.respond c d).effEnd = s.effEnd := rfl
@[simp] theorem State.respond_avb (s : State) (c : Code) (d : Word) : (s.respond c d).avb = s.avb := rfl

@[simp] theorem State.setEos_pos (s : State) : (s.setEos).pos = s.pos := rfl
@[simp] theorem State.setEos_lim (s : State) : (s.setEos).lim = s.lim := rfl
@[simp] theorem State.setEos_bitbuf (s : State) : (s.setEos).bitbuf = s.bitbuf := rfl
@[simp] theorem State.setEos_bitcnt (s : State) : (s.setEos).bitcnt = s.bitcnt := rfl
@[simp] theorem State.setEos_b0 (s : State) : (s.setEos).b0 = s.b0 := rfl
@[simp] theorem State.setEos_b1 (s : State) : (s.setEos).b1 = s.b1 := rfl
@[simp] theorem State.setEos_esc (s : State) : (s.setEos).esc = s.esc := rfl
@[simp] theorem State.setEos_eos (s : State) : (s.setEos).eos = true := rfl
@[simp] theorem State.setEos_fill (s : State) : (s.setEos).fill = s.fill := rfl
@[simp] theorem State.setEos_ill (s : State) : (s.setEos).ill = s.ill := rfl
@[simp] theorem State.setEos_len (s : State) : (s.setEos).len = s.len := rfl
@[simp] theorem State.setEos_mem (s : State) : (s.setEos).mem = s.mem := rfl
@[simp] theorem State.setEos_inbox (s : State) : (s.setEos).inbox = s.inbox := rfl
@[simp] theorem State.setEos_resp (s : State) : (s.setEos).resp = s.resp := rfl
@[simp] theorem State.setEos_draws (s : State) : (s.setEos).draws = s.draws := rfl
@[simp] theorem State.setEos_effEnd (s : State) : (s.setEos).effEnd = s.effEnd := rfl
@[simp] theorem State.setEos_avb (s : State) : (s.setEos).avb = s.avb := rfl

@[simp] theorem State.setFill_pos (s : State) : (s.setFill).pos = s.pos := rfl
@[simp] theorem State.setFill_lim (s : State) : (s.setFill).lim = s.lim := rfl
@[simp] theorem State.setFill_bitbuf (s : State) : (s.setFill).bitbuf = s.bitbuf := rfl
@[simp] theorem State.setFill_bitcnt (s : State) : (s.setFill).bitcnt = s.bitcnt := rfl
@[simp] theorem State.setFill_b0 (s : State) : (s.setFill).b0 = s.b0 := rfl
@[simp] theorem State.setFill_b1 (s : State) : (s.setFill).b1 = s.b1 := rfl
@[simp] theorem State.setFill_esc (s : State) : (s.setFill).esc = s.esc := rfl
@[simp] theorem State.setFill_eos (s : State) : (s.setFill).eos = s.eos := rfl
@[simp] theorem State.setFill_fill (s : State) : (s.setFill).fill = true := rfl
@[simp] theorem State.setFill_ill (s : State) : (s.setFill).ill = s.ill := rfl
@[simp] theorem State.setFill_len (s : State) : (s.setFill).len = s.len := rfl
@[simp] theorem State.setFill_mem (s : State) : (s.setFill).mem = s.mem := rfl
@[simp] theorem State.setFill_inbox (s : State) : (s.setFill).inbox = s.inbox := rfl
@[simp] theorem State.setFill_resp (s : State) : (s.setFill).resp = s.resp := rfl
@[simp] theorem State.setFill_draws (s : State) : (s.setFill).draws = s.draws := rfl
@[simp] theorem State.setFill_effEnd (s : State) : (s.setFill).effEnd = s.effEnd := rfl
@[simp] theorem State.setFill_avb (s : State) : (s.setFill).avb = s.avb := rfl

@[simp] theorem State.setIll_pos (s : State) : (s.setIll).pos = s.pos := rfl
@[simp] theorem State.setIll_lim (s : State) : (s.setIll).lim = s.lim := rfl
@[simp] theorem State.setIll_bitbuf (s : State) : (s.setIll).bitbuf = s.bitbuf := rfl
@[simp] theorem State.setIll_bitcnt (s : State) : (s.setIll).bitcnt = s.bitcnt := rfl
@[simp] theorem State.setIll_b0 (s : State) : (s.setIll).b0 = s.b0 := rfl
@[simp] theorem State.setIll_b1 (s : State) : (s.setIll).b1 = s.b1 := rfl
@[simp] theorem State.setIll_esc (s : State) : (s.setIll).esc = s.esc := rfl
@[simp] theorem State.setIll_eos (s : State) : (s.setIll).eos = s.eos := rfl
@[simp] theorem State.setIll_fill (s : State) : (s.setIll).fill = s.fill := rfl
@[simp] theorem State.setIll_ill (s : State) : (s.setIll).ill = true := rfl
@[simp] theorem State.setIll_len (s : State) : (s.setIll).len = s.len := rfl
@[simp] theorem State.setIll_mem (s : State) : (s.setIll).mem = s.mem := rfl
@[simp] theorem State.setIll_inbox (s : State) : (s.setIll).inbox = s.inbox := rfl
@[simp] theorem State.setIll_resp (s : State) : (s.setIll).resp = s.resp := rfl
@[simp] theorem State.setIll_draws (s : State) : (s.setIll).draws = s.draws := rfl
@[simp] theorem State.setIll_effEnd (s : State) : (s.setIll).effEnd = s.effEnd := rfl
@[simp] theorem State.setIll_avb (s : State) : (s.setIll).avb = s.avb := rfl

@[simp] theorem State.illegal_pos (s : State) : (s.illegal).pos = s.pos := rfl
@[simp] theorem State.illegal_lim (s : State) : (s.illegal).lim = s.lim := rfl
@[simp] theorem State.illegal_bitbuf (s : State) : (s.illegal).bitbuf = s.bitbuf := rfl
@[simp] theorem State.illegal_bitcnt (s : State) : (s.illegal).bitcnt = s.bitcnt := rfl
@[simp] theorem State.illegal_b0 (s : State) : (s.illegal).b0 = s.b0 := rfl
@[simp] theorem State.illegal_b1 (s : State) : (s.illegal).b1 = s.b1 := rfl
@[simp] theorem State.illegal_esc (s : State) : (s.illegal).esc = s.esc := rfl
@[simp] theorem State.illegal_eos (s : State) : (s.illegal).eos = s.eos := rfl
@[simp] theorem State.illegal_fill (s : State) : (s.illegal).fill = s.fill := rfl
@[simp] theorem State.illegal_ill (s : State) : (s.illegal).ill = true := rfl
@[simp] theorem State.illegal_len (s : State) : (s.illegal).len = s.len := rfl
@[simp] theorem State.illegal_mem (s : State) : (s.illegal).mem = s.mem := rfl
@[simp] theorem State.illegal_inbox (s : State) : (s.illegal).inbox = s.inbox := rfl
@[simp] theorem State.illegal_resp (s : State) : (s.illegal).resp = some ⟨.ill, 0#32⟩ := rfl
@[simp] theorem State.illegal_draws (s : State) : (s.illegal).draws = s.draws := rfl
@[simp] theorem State.illegal_effEnd (s : State) : (s.illegal).effEnd = s.effEnd := rfl
@[simp] theorem State.illegal_avb (s : State) : (s.illegal).avb = s.avb := rfl

@[simp] theorem State.rawEntry_pos (s : State) : (s.rawEntry).pos = s.pos := rfl
@[simp] theorem State.rawEntry_lim (s : State) : (s.rawEntry).lim = s.lim := rfl
@[simp] theorem State.rawEntry_bitbuf (s : State) : (s.rawEntry).bitbuf = s.bitbuf := rfl
@[simp] theorem State.rawEntry_bitcnt (s : State) : (s.rawEntry).bitcnt = s.bitcnt := rfl
@[simp] theorem State.rawEntry_b0 (s : State) : (s.rawEntry).b0 = s.b0 := rfl
@[simp] theorem State.rawEntry_b1 (s : State) : (s.rawEntry).b1 = s.b1 := rfl
@[simp] theorem State.rawEntry_esc (s : State) : (s.rawEntry).esc = false := rfl
@[simp] theorem State.rawEntry_eos (s : State) : (s.rawEntry).eos = s.eos := rfl
@[simp] theorem State.rawEntry_fill (s : State) : (s.rawEntry).fill = s.fill := rfl
@[simp] theorem State.rawEntry_ill (s : State) : (s.rawEntry).ill = s.ill := rfl
@[simp] theorem State.rawEntry_len (s : State) : (s.rawEntry).len = s.len := rfl
@[simp] theorem State.rawEntry_mem (s : State) : (s.rawEntry).mem = s.mem := rfl
@[simp] theorem State.rawEntry_inbox (s : State) : (s.rawEntry).inbox = s.inbox := rfl
@[simp] theorem State.rawEntry_resp (s : State) : (s.rawEntry).resp = s.resp := rfl
@[simp] theorem State.rawEntry_draws (s : State) : (s.rawEntry).draws = s.draws := rfl
@[simp] theorem State.rawEntry_effEnd (s : State) : (s.rawEntry).effEnd = s.effEnd := rfl
@[simp] theorem State.rawEntry_avb (s : State) : (s.rawEntry).avb = s.avb := rfl

@[simp] theorem State.byteEntry_pos (s : State) : (s.byteEntry).pos = s.pos := rfl
@[simp] theorem State.byteEntry_lim (s : State) : (s.byteEntry).lim = s.lim := rfl
@[simp] theorem State.byteEntry_bitbuf (s : State) : (s.byteEntry).bitbuf = s.bitbuf := rfl
@[simp] theorem State.byteEntry_bitcnt (s : State) : (s.byteEntry).bitcnt = 0#4 := rfl
@[simp] theorem State.byteEntry_b0 (s : State) : (s.byteEntry).b0 = s.b0 := rfl
@[simp] theorem State.byteEntry_b1 (s : State) : (s.byteEntry).b1 = s.b1 := rfl
@[simp] theorem State.byteEntry_esc (s : State) : (s.byteEntry).esc = false := rfl
@[simp] theorem State.byteEntry_eos (s : State) : (s.byteEntry).eos = s.eos := rfl
@[simp] theorem State.byteEntry_fill (s : State) : (s.byteEntry).fill = s.fill := rfl
@[simp] theorem State.byteEntry_ill (s : State) : (s.byteEntry).ill = s.ill := rfl
@[simp] theorem State.byteEntry_len (s : State) : (s.byteEntry).len = s.len := rfl
@[simp] theorem State.byteEntry_mem (s : State) : (s.byteEntry).mem = s.mem := rfl
@[simp] theorem State.byteEntry_inbox (s : State) : (s.byteEntry).inbox = s.inbox := rfl
@[simp] theorem State.byteEntry_resp (s : State) : (s.byteEntry).resp = s.resp := rfl
@[simp] theorem State.byteEntry_draws (s : State) : (s.byteEntry).draws = s.draws := rfl
@[simp] theorem State.byteEntry_effEnd (s : State) : (s.byteEntry).effEnd = s.effEnd := rfl

@[simp] theorem State.failRaw_pos (s : State) : (s.failRaw).pos = BitVec.ofNat 32 (max s.pos.toNat s.effEnd) := rfl
@[simp] theorem State.failRaw_lim (s : State) : (s.failRaw).lim = s.lim := rfl
@[simp] theorem State.failRaw_bitbuf (s : State) : (s.failRaw).bitbuf = s.bitbuf := rfl
@[simp] theorem State.failRaw_bitcnt (s : State) : (s.failRaw).bitcnt = 0#4 := rfl
@[simp] theorem State.failRaw_b0 (s : State) : (s.failRaw).b0 = s.b0 := rfl
@[simp] theorem State.failRaw_b1 (s : State) : (s.failRaw).b1 = s.b1 := rfl
@[simp] theorem State.failRaw_esc (s : State) : (s.failRaw).esc = false := rfl
@[simp] theorem State.failRaw_eos (s : State) : (s.failRaw).eos = true := rfl
@[simp] theorem State.failRaw_fill (s : State) : (s.failRaw).fill = s.fill := rfl
@[simp] theorem State.failRaw_ill (s : State) : (s.failRaw).ill = s.ill := rfl
@[simp] theorem State.failRaw_len (s : State) : (s.failRaw).len = s.len := rfl
@[simp] theorem State.failRaw_mem (s : State) : (s.failRaw).mem = s.mem := rfl
@[simp] theorem State.failRaw_inbox (s : State) : (s.failRaw).inbox = s.inbox := rfl
@[simp] theorem State.failRaw_resp (s : State) : (s.failRaw).resp = some ⟨.exh, Config.draw32 s.draws⟩ := rfl
@[simp] theorem State.failRaw_draws (s : State) : (s.failRaw).draws = s.draws + 1 := rfl
@[simp] theorem State.failRaw_effEnd (s : State) : (s.failRaw).effEnd = s.effEnd := rfl

@[simp] theorem State.resetRegs_pos (s : State) : (s.resetRegs).pos = 0#32 := rfl
@[simp] theorem State.resetRegs_lim (s : State) : (s.resetRegs).lim = 0xFFFFFFFF#32 := rfl
@[simp] theorem State.resetRegs_bitbuf (s : State) : (s.resetRegs).bitbuf = 0x00#8 := rfl
@[simp] theorem State.resetRegs_bitcnt (s : State) : (s.resetRegs).bitcnt = 0#4 := rfl
@[simp] theorem State.resetRegs_b0 (s : State) : (s.resetRegs).b0 = 0x00#8 := rfl
@[simp] theorem State.resetRegs_b1 (s : State) : (s.resetRegs).b1 = 0x00#8 := rfl
@[simp] theorem State.resetRegs_esc (s : State) : (s.resetRegs).esc = false := rfl
@[simp] theorem State.resetRegs_eos (s : State) : (s.resetRegs).eos = false := rfl
@[simp] theorem State.resetRegs_fill (s : State) : (s.resetRegs).fill = false := rfl
@[simp] theorem State.resetRegs_ill (s : State) : (s.resetRegs).ill = false := rfl
@[simp] theorem State.resetRegs_len (s : State) : (s.resetRegs).len = s.len := rfl
@[simp] theorem State.resetRegs_mem (s : State) : (s.resetRegs).mem = s.mem := rfl
@[simp] theorem State.resetRegs_inbox (s : State) : (s.resetRegs).inbox = s.inbox := rfl
@[simp] theorem State.resetRegs_resp (s : State) : (s.resetRegs).resp = none := rfl
@[simp] theorem State.resetRegs_draws (s : State) : (s.resetRegs).draws = s.draws := rfl

@[simp] theorem State.bindStream_pos (s : State) (bytes : List Byte) : (s.bindStream bytes).pos = s.pos := rfl
@[simp] theorem State.bindStream_lim (s : State) (bytes : List Byte) : (s.bindStream bytes).lim = s.lim := rfl
@[simp] theorem State.bindStream_bitbuf (s : State) (bytes : List Byte) : (s.bindStream bytes).bitbuf = s.bitbuf := rfl
@[simp] theorem State.bindStream_bitcnt (s : State) (bytes : List Byte) : (s.bindStream bytes).bitcnt = s.bitcnt := rfl
@[simp] theorem State.bindStream_b0 (s : State) (bytes : List Byte) : (s.bindStream bytes).b0 = s.b0 := rfl
@[simp] theorem State.bindStream_b1 (s : State) (bytes : List Byte) : (s.bindStream bytes).b1 = s.b1 := rfl
@[simp] theorem State.bindStream_esc (s : State) (bytes : List Byte) : (s.bindStream bytes).esc = s.esc := rfl
@[simp] theorem State.bindStream_eos (s : State) (bytes : List Byte) : (s.bindStream bytes).eos = s.eos := rfl
@[simp] theorem State.bindStream_fill (s : State) (bytes : List Byte) : (s.bindStream bytes).fill = s.fill := rfl
@[simp] theorem State.bindStream_ill (s : State) (bytes : List Byte) : (s.bindStream bytes).ill = s.ill := rfl
@[simp] theorem State.bindStream_len (s : State) (bytes : List Byte) : (s.bindStream bytes).len = BitVec.ofNat 32 bytes.length := rfl
@[simp] theorem State.bindStream_mem (s : State) (bytes : List Byte) : (s.bindStream bytes).mem = Memory.ofBytes 0 bytes := rfl
@[simp] theorem State.bindStream_inbox (s : State) (bytes : List Byte) : (s.bindStream bytes).inbox = s.inbox := rfl
@[simp] theorem State.bindStream_resp (s : State) (bytes : List Byte) : (s.bindStream bytes).resp = s.resp := rfl
@[simp] theorem State.bindStream_draws (s : State) (bytes : List Byte) : (s.bindStream bytes).draws = s.draws := rfl

@[simp] theorem State.withFetchWord_pos (s : State) (nbits w : Nat) : (s.withFetchWord nbits w).pos = s.pos := rfl
@[simp] theorem State.withFetchWord_lim (s : State) (nbits w : Nat) : (s.withFetchWord nbits w).lim = s.lim := rfl
@[simp] theorem State.withFetchWord_bitbuf (s : State) (nbits w : Nat) : (s.withFetchWord nbits w).bitbuf = s.bitbuf := rfl
@[simp] theorem State.withFetchWord_bitcnt (s : State) (nbits w : Nat) : (s.withFetchWord nbits w).bitcnt = s.bitcnt := rfl
@[simp] theorem State.withFetchWord_b0 (s : State) (nbits w : Nat) : (s.withFetchWord nbits w).b0 = s.b0 := rfl
@[simp] theorem State.withFetchWord_b1 (s : State) (nbits w : Nat) : (s.withFetchWord nbits w).b1 = s.b1 := rfl
@[simp] theorem State.withFetchWord_esc (s : State) (nbits w : Nat) : (s.withFetchWord nbits w).esc = s.esc := rfl
@[simp] theorem State.withFetchWord_eos (s : State) (nbits w : Nat) : (s.withFetchWord nbits w).eos = s.eos := rfl
@[simp] theorem State.withFetchWord_fill (s : State) (nbits w : Nat) : (s.withFetchWord nbits w).fill = s.fill := rfl
@[simp] theorem State.withFetchWord_ill (s : State) (nbits w : Nat) : (s.withFetchWord nbits w).ill = s.ill := rfl
@[simp] theorem State.withFetchWord_len (s : State) (nbits w : Nat) : (s.withFetchWord nbits w).len = s.len := rfl
@[simp] theorem State.withFetchWord_mem (s : State) (nbits w : Nat) : (s.withFetchWord nbits w).mem = s.mem := rfl
@[simp] theorem State.withFetchWord_inbox (s : State) (nbits w : Nat) : (s.withFetchWord nbits w).inbox = .command (BitVec.ofNat 40 (w % 2 ^ nbits)) :: s.inbox := rfl
@[simp] theorem State.withFetchWord_resp (s : State) (nbits w : Nat) : (s.withFetchWord nbits w).resp = s.resp := rfl
@[simp] theorem State.withFetchWord_draws (s : State) (nbits w : Nat) : (s.withFetchWord nbits w).draws = s.draws := rfl
@[simp] theorem State.withFetchWord_effEnd (s : State) (nbits w : Nat) : (s.withFetchWord nbits w).effEnd = s.effEnd := rfl
@[simp] theorem State.withFetchWord_avb (s : State) (nbits w : Nat) : (s.withFetchWord nbits w).avb = s.avb := rfl

@[simp] theorem finish_ok (s : State) : finish (.ok s) = .next s := rfl
@[simp] theorem finish_pure (s : State) : finish (pure s) = .next s := rfl

end Sys2Proof.Machine
end

