-- ==== Sys2Proof/Laws/Effects.lean ====
section
/-! SUPPORT. What each whole-state effect of Safety.lean leaves in each field. -/

namespace Sys2Proof.Machine

@[simp] theorem State.answered_pos (s : State) (d : Word) : (s.answered d).pos = s.pos := rfl
@[simp] theorem State.answered_lim (s : State) (d : Word) : (s.answered d).lim = s.lim := rfl
@[simp] theorem State.answered_bitbuf (s : State) (d : Word) : (s.answered d).bitbuf = s.bitbuf := rfl
@[simp] theorem State.answered_bitcnt (s : State) (d : Word) : (s.answered d).bitcnt = s.bitcnt := rfl
@[simp] theorem State.answered_b0 (s : State) (d : Word) : (s.answered d).b0 = s.b0 := rfl
@[simp] theorem State.answered_b1 (s : State) (d : Word) : (s.answered d).b1 = s.b1 := rfl
@[simp] theorem State.answered_esc (s : State) (d : Word) : (s.answered d).esc = s.esc := rfl
@[simp] theorem State.answered_eos (s : State) (d : Word) : (s.answered d).eos = s.eos := rfl
@[simp] theorem State.answered_fill (s : State) (d : Word) : (s.answered d).fill = s.fill := rfl
@[simp] theorem State.answered_ill (s : State) (d : Word) : (s.answered d).ill = s.ill := rfl
@[simp] theorem State.answered_len (s : State) (d : Word) : (s.answered d).len = s.len := rfl
@[simp] theorem State.answered_mem (s : State) (d : Word) : (s.answered d).mem = s.mem := rfl
@[simp] theorem State.answered_inbox (s : State) (d : Word) : (s.answered d).inbox = s.inbox := rfl
@[simp] theorem State.answered_resp (s : State) (d : Word) : (s.answered d).resp = some ⟨.ok, d⟩ := rfl
@[simp] theorem State.answered_draws (s : State) (d : Word) : (s.answered d).draws = s.draws := rfl
@[simp] theorem State.answered_effEnd (s : State) (d : Word) : (s.answered d).effEnd = s.effEnd := rfl
@[simp] theorem State.answered_byteAt (s : State) (d : Word) (x : Nat) : (s.answered d).byteAt x = s.byteAt x := rfl
@[simp] theorem State.answered_avb (s : State) (d : Word) : (s.answered d).avb = s.avb := rfl
@[simp] theorem State.answered_rawBits (s : State) (d : Word) : (s.answered d).rawBits = s.rawBits := rfl

@[simp] theorem State.rejected_pos (s : State) : (s.rejected).pos = s.pos := rfl
@[simp] theorem State.rejected_lim (s : State) : (s.rejected).lim = s.lim := rfl
@[simp] theorem State.rejected_bitbuf (s : State) : (s.rejected).bitbuf = s.bitbuf := rfl
@[simp] theorem State.rejected_bitcnt (s : State) : (s.rejected).bitcnt = s.bitcnt := rfl
@[simp] theorem State.rejected_b0 (s : State) : (s.rejected).b0 = s.b0 := rfl
@[simp] theorem State.rejected_b1 (s : State) : (s.rejected).b1 = s.b1 := rfl
@[simp] theorem State.rejected_esc (s : State) : (s.rejected).esc = s.esc := rfl
@[simp] theorem State.rejected_eos (s : State) : (s.rejected).eos = s.eos := rfl
@[simp] theorem State.rejected_fill (s : State) : (s.rejected).fill = s.fill := rfl
@[simp] theorem State.rejected_ill (s : State) : (s.rejected).ill = true := rfl
@[simp] theorem State.rejected_len (s : State) : (s.rejected).len = s.len := rfl
@[simp] theorem State.rejected_mem (s : State) : (s.rejected).mem = s.mem := rfl
@[simp] theorem State.rejected_inbox (s : State) : (s.rejected).inbox = s.inbox := rfl
@[simp] theorem State.rejected_resp (s : State) : (s.rejected).resp = some ⟨.ill, 0#32⟩ := rfl
@[simp] theorem State.rejected_draws (s : State) : (s.rejected).draws = s.draws := rfl
@[simp] theorem State.rejected_effEnd (s : State) : (s.rejected).effEnd = s.effEnd := rfl
@[simp] theorem State.rejected_byteAt (s : State) (x : Nat) : (s.rejected).byteAt x = s.byteAt x := rfl
@[simp] theorem State.rejected_avb (s : State) : (s.rejected).avb = s.avb := rfl
@[simp] theorem State.rejected_rawBits (s : State) : (s.rejected).rawBits = s.rawBits := rfl

@[simp] theorem State.exhausted_pos (s : State) : (s.exhausted).pos = BitVec.ofNat 32 (max s.pos.toNat s.effEnd) := rfl
@[simp] theorem State.exhausted_lim (s : State) : (s.exhausted).lim = s.lim := rfl
@[simp] theorem State.exhausted_bitbuf (s : State) : (s.exhausted).bitbuf = s.bitbuf := rfl
@[simp] theorem State.exhausted_bitcnt (s : State) : (s.exhausted).bitcnt = 0#4 := rfl
@[simp] theorem State.exhausted_b0 (s : State) : (s.exhausted).b0 = s.b0 := rfl
@[simp] theorem State.exhausted_b1 (s : State) : (s.exhausted).b1 = s.b1 := rfl
@[simp] theorem State.exhausted_esc (s : State) : (s.exhausted).esc = false := rfl
@[simp] theorem State.exhausted_eos (s : State) : (s.exhausted).eos = true := rfl
@[simp] theorem State.exhausted_fill (s : State) : (s.exhausted).fill = s.fill := rfl
@[simp] theorem State.exhausted_ill (s : State) : (s.exhausted).ill = s.ill := rfl
@[simp] theorem State.exhausted_len (s : State) : (s.exhausted).len = s.len := rfl
@[simp] theorem State.exhausted_mem (s : State) : (s.exhausted).mem = s.mem := rfl
@[simp] theorem State.exhausted_inbox (s : State) : (s.exhausted).inbox = s.inbox := rfl
@[simp] theorem State.exhausted_resp (s : State) : (s.exhausted).resp = some ⟨.exh, Config.draw32 s.draws⟩ := rfl
@[simp] theorem State.exhausted_draws (s : State) : (s.exhausted).draws = s.draws + 1 := rfl
@[simp] theorem State.exhausted_effEnd (s : State) : (s.exhausted).effEnd = s.effEnd := rfl
@[simp] theorem State.exhausted_byteAt (s : State) (x : Nat) : (s.exhausted).byteAt x = s.byteAt x := rfl

@[simp] theorem State.afterBytes_pos (s : State) (k : Nat) : (s.afterBytes k).pos = BitVec.ofNat 32 (s.pos.toNat + k) := rfl
@[simp] theorem State.afterBytes_lim (s : State) (k : Nat) : (s.afterBytes k).lim = s.lim := rfl
@[simp] theorem State.afterBytes_bitbuf (s : State) (k : Nat) : (s.afterBytes k).bitbuf = s.bitbuf := rfl
@[simp] theorem State.afterBytes_bitcnt (s : State) (k : Nat) : (s.afterBytes k).bitcnt = 0#4 := rfl
@[simp] theorem State.afterBytes_b0 (s : State) (k : Nat) : (s.afterBytes k).b0 = s.b0 := rfl
@[simp] theorem State.afterBytes_b1 (s : State) (k : Nat) : (s.afterBytes k).b1 = s.b1 := rfl
@[simp] theorem State.afterBytes_esc (s : State) (k : Nat) : (s.afterBytes k).esc = false := rfl
@[simp] theorem State.afterBytes_eos (s : State) (k : Nat) : (s.afterBytes k).eos = s.eos := rfl
@[simp] theorem State.afterBytes_fill (s : State) (k : Nat) : (s.afterBytes k).fill = s.fill := rfl
@[simp] theorem State.afterBytes_ill (s : State) (k : Nat) : (s.afterBytes k).ill = s.ill := rfl
@[simp] theorem State.afterBytes_len (s : State) (k : Nat) : (s.afterBytes k).len = s.len := rfl
@[simp] theorem State.afterBytes_mem (s : State) (k : Nat) : (s.afterBytes k).mem = s.mem := rfl
@[simp] theorem State.afterBytes_inbox (s : State) (k : Nat) : (s.afterBytes k).inbox = s.inbox := rfl
@[simp] theorem State.afterBytes_resp (s : State) (k : Nat) : (s.afterBytes k).resp = s.resp := rfl
@[simp] theorem State.afterBytes_draws (s : State) (k : Nat) : (s.afterBytes k).draws = s.draws := rfl
@[simp] theorem State.afterBytes_effEnd (s : State) (k : Nat) : (s.afterBytes k).effEnd = s.effEnd := rfl
@[simp] theorem State.afterBytes_byteAt (s : State) (k : Nat) (x : Nat) : (s.afterBytes k).byteAt x = s.byteAt x := rfl

@[simp] theorem State.afterBits_pos (s : State) (n : Nat) : (s.afterBits n).pos = BitVec.ofNat 32 (s.pos.toNat + s.bytesFor n) := rfl
@[simp] theorem State.afterBits_lim (s : State) (n : Nat) : (s.afterBits n).lim = s.lim := rfl
@[simp] theorem State.afterBits_bitbuf (s : State) (n : Nat) : (s.afterBits n).bitbuf = 
      if n ≤ s.bitcnt.toNat then s.bitbuf else s.byteAt (s.pos.toNat + s.bytesFor n - 1) := rfl
@[simp] theorem State.afterBits_bitcnt (s : State) (n : Nat) : (s.afterBits n).bitcnt = 
      if n ≤ s.bitcnt.toNat then BitVec.ofNat 4 (s.bitcnt.toNat - n)
        else BitVec.ofNat 4 (8 * s.bytesFor n - (n - s.bitcnt.toNat)) := rfl
@[simp] theorem State.afterBits_b0 (s : State) (n : Nat) : (s.afterBits n).b0 = s.b0 := rfl
@[simp] theorem State.afterBits_b1 (s : State) (n : Nat) : (s.afterBits n).b1 = s.b1 := rfl
@[simp] theorem State.afterBits_esc (s : State) (n : Nat) : (s.afterBits n).esc = false := rfl
@[simp] theorem State.afterBits_eos (s : State) (n : Nat) : (s.afterBits n).eos = s.eos := rfl
@[simp] theorem State.afterBits_fill (s : State) (n : Nat) : (s.afterBits n).fill = s.fill := rfl
@[simp] theorem State.afterBits_ill (s : State) (n : Nat) : (s.afterBits n).ill = s.ill := rfl
@[simp] theorem State.afterBits_len (s : State) (n : Nat) : (s.afterBits n).len = s.len := rfl
@[simp] theorem State.afterBits_mem (s : State) (n : Nat) : (s.afterBits n).mem = s.mem := rfl
@[simp] theorem State.afterBits_inbox (s : State) (n : Nat) : (s.afterBits n).inbox = s.inbox := rfl
@[simp] theorem State.afterBits_resp (s : State) (n : Nat) : (s.afterBits n).resp = s.resp := rfl
@[simp] theorem State.afterBits_draws (s : State) (n : Nat) : (s.afterBits n).draws = s.draws := rfl
@[simp] theorem State.afterBits_effEnd (s : State) (n : Nat) : (s.afterBits n).effEnd = s.effEnd := rfl
@[simp] theorem State.afterBits_byteAt (s : State) (n : Nat) (x : Nat) : (s.afterBits n).byteAt x = s.byteAt x := rfl

@[simp] theorem State.withMem_pos (s : State) (m : Memory) : (s.withMem m).pos = s.pos := rfl
@[simp] theorem State.withMem_lim (s : State) (m : Memory) : (s.withMem m).lim = s.lim := rfl
@[simp] theorem State.withMem_bitbuf (s : State) (m : Memory) : (s.withMem m).bitbuf = s.bitbuf := rfl
@[simp] theorem State.withMem_bitcnt (s : State) (m : Memory) : (s.withMem m).bitcnt = s.bitcnt := rfl
@[simp] theorem State.withMem_b0 (s : State) (m : Memory) : (s.withMem m).b0 = s.b0 := rfl
@[simp] theorem State.withMem_b1 (s : State) (m : Memory) : (s.withMem m).b1 = s.b1 := rfl
@[simp] theorem State.withMem_esc (s : State) (m : Memory) : (s.withMem m).esc = s.esc := rfl
@[simp] theorem State.withMem_eos (s : State) (m : Memory) : (s.withMem m).eos = s.eos := rfl
@[simp] theorem State.withMem_fill (s : State) (m : Memory) : (s.withMem m).fill = s.fill := rfl
@[simp] theorem State.withMem_ill (s : State) (m : Memory) : (s.withMem m).ill = s.ill := rfl
@[simp] theorem State.withMem_len (s : State) (m : Memory) : (s.withMem m).len = s.len := rfl
@[simp] theorem State.withMem_mem (s : State) (m : Memory) : (s.withMem m).mem = m := rfl
@[simp] theorem State.withMem_inbox (s : State) (m : Memory) : (s.withMem m).inbox = s.inbox := rfl
@[simp] theorem State.withMem_resp (s : State) (m : Memory) : (s.withMem m).resp = s.resp := rfl
@[simp] theorem State.withMem_draws (s : State) (m : Memory) : (s.withMem m).draws = s.draws := rfl
@[simp] theorem State.withMem_effEnd (s : State) (m : Memory) : (s.withMem m).effEnd = s.effEnd := rfl
@[simp] theorem State.withMem_avb (s : State) (m : Memory) : (s.withMem m).avb = s.avb := rfl

end Sys2Proof.Machine
end

