-- ==== Sys2Proof/Laws/Memory.lean ====
section
/-! SUPPORT. The stream's memory: what the host binds is what is read, it is in canonical form, and a
canonical memory is determined by what it reads as. -/

namespace Sys2Proof.Machine

@[simp] theorem Memory.read_nil (a : Nat) : Memory.read [] a = Memory.unlisted := rfl

theorem Memory.read_cons (k : Nat) (v : Byte) (m : Memory) (a : Nat) :
    Memory.read ((k, v) :: m) a = if k = a then v else m.read a := rfl

theorem Memory.wfFrom_cons (hi lo k : Nat) (v : Byte) (m : Memory) :
    Memory.wfFrom hi lo ((k, v) :: m) = true ↔
      lo ≤ k ∧ k < hi ∧ v ≠ Memory.unlisted ∧ Memory.wfFrom hi (k + 1) m = true := by
  simp [Memory.wfFrom, and_assoc]

theorem Memory.wfFrom_mono {hi lo lo' : Nat} {m : Memory} (h : Memory.wfFrom hi lo m = true)
    (hl : lo' ≤ lo) : Memory.wfFrom hi lo' m = true := by
  cases m with
  | nil => rfl
  | cons e m =>
    obtain ⟨k, v⟩ := e
    rw [Memory.wfFrom_cons] at h ⊢
    exact ⟨by omega, h.2⟩

/-- Nothing is listed below the lower bound. -/
theorem Memory.read_below {hi : Nat} : ∀ {lo a : Nat} {m : Memory},
    Memory.wfFrom hi lo m = true → a < lo → m.read a = Memory.unlisted
  | _, _, [], _, _ => rfl
  | lo, a, (k, v) :: m, h, ha => by
    rw [Memory.wfFrom_cons] at h
    rw [Memory.read_cons, if_neg (by omega)]
    exact Memory.read_below h.2.2.2 (by omega)

theorem Memory.ofBytes_wfFrom {hi : Nat} : ∀ {a : Nat} {bs : List Byte},
    a + bs.length ≤ hi → Memory.wfFrom hi a (Memory.ofBytes a bs) = true
  | _, [], _ => rfl
  | a, b :: bs, h => by
    have ih := Memory.ofBytes_wfFrom (hi := hi) (a := a + 1) (bs := bs)
      (by simp only [List.length_cons] at h; omega)
    rw [Memory.ofBytes]
    split
    · exact Memory.wfFrom_mono ih (by omega)
    · rename_i hb
      rw [Memory.wfFrom_cons]
      simp only [List.length_cons] at h
      exact ⟨Nat.le_refl _, by omega, hb, ih⟩

/-- Binding gives a memory in canonical form. -/
theorem Memory.ofBytes_wf (bs : List Byte) : (Memory.ofBytes 0 bs).wf bs.length = true :=
  Memory.ofBytes_wfFrom (by omega)

/-- The bytes bound are the bytes read. -/
theorem Memory.ofBytes_read : ∀ {a : Nat} {bs : List Byte} {k : Nat}, a ≤ k →
    (Memory.ofBytes a bs).read k = bs.getD (k - a) Memory.unlisted
  | _, [], _, _ => by simp [Memory.ofBytes]
  | a, b :: bs, k, h => by
    have below : ∀ j, j < a + 1 → (Memory.ofBytes (a + 1) bs).read j = Memory.unlisted := fun j hj =>
      Memory.read_below (Memory.ofBytes_wfFrom (hi := a + 1 + bs.length) (Nat.le_refl _)) hj
    rw [Memory.ofBytes]
    by_cases hk : k = a
    · subst hk
      split
      · rename_i hb
        rw [below k (by omega)]; simp [hb]
      · simp [Memory.read_cons]
    · obtain ⟨d, hd⟩ : ∃ d, k - a = d + 1 := ⟨k - a - 1, by omega⟩
      have ih := Memory.ofBytes_read (a := a + 1) (bs := bs) (k := k) (by omega)
      have e : k - (a + 1) = d := by omega
      rw [e] at ih
      split
      · rw [ih, hd]; simp
      · rw [Memory.read_cons, if_neg (Ne.symm hk), ih, hd]; simp

/-- Canonical memories that read alike are equal data. -/
theorem Memory.wf_ext {hi : Nat} : ∀ {lo : Nat} {m m' : Memory},
    Memory.wfFrom hi lo m = true → Memory.wfFrom hi lo m' = true → (∀ a, m.read a = m'.read a) → m = m'
  | _, [], [], _, _, _ => rfl
  | _, [], (k, v) :: m', _, h', e => by
    rw [Memory.wfFrom_cons] at h'
    exact absurd (e k).symm (by simpa [Memory.read_cons] using h'.2.2.1)
  | _, (k, v) :: m, [], h, _, e => by
    rw [Memory.wfFrom_cons] at h
    exact absurd (e k) (by simpa [Memory.read_cons] using h.2.2.1)
  | lo, (k, v) :: m, (k', v') :: m', h, h', e => by
    rw [Memory.wfFrom_cons] at h h'
    have hk : k = k' := by
      rcases Nat.lt_trichotomy k k' with hlt | heq | hgt
      · have := e k
        rw [Memory.read_cons, if_pos rfl, Memory.read_cons, if_neg (by omega),
          Memory.read_below h'.2.2.2 (by omega)] at this
        exact absurd this h.2.2.1
      · exact heq
      · have := e k'
        rw [Memory.read_cons, if_neg (by omega), Memory.read_cons, if_pos rfl,
          Memory.read_below h.2.2.2 (by omega)] at this
        exact absurd this.symm h'.2.2.1
    subst hk
    have hv : v = v' := by simpa [Memory.read_cons] using e k
    subst hv
    have : m = m' := Memory.wf_ext h.2.2.2 h'.2.2.2 fun a => by
      by_cases ha : k = a
      · subst ha
        rw [Memory.read_below h.2.2.2 (by omega), Memory.read_below h'.2.2.2 (by omega)]
      · simpa [Memory.read_cons, ha] using e a
    rw [this]

end Sys2Proof.Machine
end

