-- ==== Sys2Proof/Laws/Ops.lean ====
section
/-! SUPPORT. One lemma for each shared operation that says all it does, so that no proof about a command
unfolds an operation: MemRead, TakeBit, TakeBits, TakeBytes, EscFetch, FailRaw, the illegal command. -/

namespace Sys2Proof.Machine

theorem State.effEnd_le_len (s : State) : s.effEnd ≤ s.len.toNat := Nat.min_le_right _ _

theorem State.effEnd_lt (s : State) : s.effEnd < 2 ^ 32 :=
  Nat.lt_of_le_of_lt s.effEnd_le_len s.len.isLt

theorem State.illegal_eq (s : State) : s.illegal = s.rejected := rfl

theorem State.failRaw_eq (s : State) : s.failRaw = s.exhausted := rfl

theorem State.respond_ok_eq (s : State) (v : Word) : s.respond .ok v = s.answered v := rfl

/-- What is lost for lack of data does not depend on `esc` and `bitcnt`, which it clears. -/
@[simp] theorem State.rawEntry_exhausted (s : State) : s.rawEntry.exhausted = s.exhausted := rfl

@[simp] theorem State.byteEntry_exhausted (s : State) : s.byteEntry.exhausted = s.exhausted := rfl

theorem memRead_ok {s : State} {a : Nat} (h : a < s.len.toNat) : memRead s a = .ok (s.byteAt a) :=
  if_pos h

/-- A byte that lies before E is fetched. -/
theorem fetchByte_ok {s : State} (h : s.pos.toNat < s.effEnd) :
    fetchByte s = .ok (s.byteAt s.pos.toNat, { s with pos := s.pos + 1#32 }) := by
  have := s.effEnd_le_len
  rw [fetchByte, memRead_ok (by omega)]; rfl

theorem pos_succ {s : State} (h : s.pos.toNat < s.effEnd) :
    (s.pos + 1#32).toNat = s.pos.toNat + 1 := by
  have := s.effEnd_lt
  rw [BitVec.toNat_add]
  exact Nat.mod_eq_of_lt (by simp; omega)

/-- Equal addresses below 2^32, seen as numbers. -/
theorem pos_add_one {s : State} (h : s.pos.toNat < s.effEnd) :
    s.pos + 1#32 = BitVec.ofNat 32 (s.pos.toNat + 1) := by
  have := s.effEnd_lt
  apply BitVec.eq_of_toNat_eq
  rw [pos_succ h, BitVec.toNat_ofNat, Nat.mod_eq_of_lt (by omega)]

theorem State.atMarker_iff (s : State) : s.atMarker = true ↔ s.b0 = 0xFF#8 ∧ 0x8F#8 < s.b1 := by
  simp [State.atMarker]

/-- EscFetch: a readable byte, or a fill byte (43_escape_path R141). -/
theorem escFetch_eq (s : State) :
    escFetch s = if s.pos.toNat < s.effEnd
      then .ok (s.byteAt s.pos.toNat, false, { s with pos := s.pos + 1#32 })
      else .ok (0xFF#8, true, { s with fill := true }) := by
  unfold escFetch
  split
  · rename_i h; rw [fetchByte_ok h]; rfl
  · rfl

theorem byteBits_succ (b : Byte) (c : Nat) : byteBits b (c + 1) = b.getLsbD c :: byteBits b c := by
  simp [byteBits, List.range_succ]

@[simp] theorem byteBits_zero (b : Byte) : byteBits b 0 = [] := rfl

@[simp] theorem byteBits_length (b : Byte) (c : Nat) : (byteBits b c).length = c := by
  simp [byteBits]

@[simp] theorem streamBits_length (s : State) (a n : Nat) : (s.streamBits a n).length = 8 * n := by
  unfold State.streamBits
  induction n generalizing a with
  | zero => rfl
  | succ n ih => simp only [List.range'_succ, List.flatMap_cons, List.length_append, byteBits_length, ih]; omega

theorem streamBits_succ (s : State) (a n : Nat) :
    s.streamBits a (n + 1) = byteBits (s.byteAt a) 8 ++ s.streamBits (a + 1) n := by
  simp [State.streamBits, List.range'_succ]

/-- There are AVB raw bits to be read (10_state R26). -/
theorem rawBits_length (s : State) : s.rawBits.length = s.avb := by
  simp [State.rawBits, State.avb]

theorem bitcnt_ne_zero {s : State} (h : s.bitcnt ≠ 0#4) : 1 ≤ s.bitcnt.toNat := by
  have : s.bitcnt.toNat ≠ 0 := fun e => h (BitVec.eq_of_toNat_eq (by simpa using e))
  omega

theorem bitcnt_pred {s : State} (h : s.bitcnt ≠ 0#4) :
    (s.bitcnt - 1#4).toNat = s.bitcnt.toNat - 1 := by
  have h1 := bitcnt_ne_zero h
  have h2 := s.bitcnt.isLt
  rw [BitVec.toNat_sub]
  simp
  omega

/-- TakeBit, when a bit is left in `bitbuf`. -/
theorem takeBit_buffered {s : State} (h : s.bitcnt ≠ 0#4) :
    takeBit s = .ok (s.bitbuf.getLsbD (s.bitcnt.toNat - 1), { s with bitcnt := s.bitcnt - 1#4 }) := by
  rw [← bitcnt_pred h]
  simp [takeBit, refill, h]
  rfl

/-- TakeBit, when a byte is fetched. -/
theorem takeBit_fetch {s : State} (h : s.bitcnt = 0#4) (hp : s.pos.toNat < s.effEnd) :
    takeBit s = .ok ((s.byteAt s.pos.toNat).getLsbD 7,
      { s with pos := s.pos + 1#32, bitbuf := s.byteAt s.pos.toNat, bitcnt := 7#4 }) := by
  simp [takeBit, refill, h, fetchByte_ok hp, bind, Except.bind, pure, Except.pure]

/-- What TakeBit leaves: its bit was the first of the raw bits, the others stay, `avb` drops by one. -/
theorem takeBit_ok {s : State} (h : 1 ≤ s.avb) : ∃ b s', takeBit s = .ok (b, s')
    ∧ s.rawBits = b :: s'.rawBits ∧ s'.effEnd = s.effEnd
    ∧ s' = { s with pos := s'.pos, bitbuf := s'.bitbuf, bitcnt := s'.bitcnt } := by
  by_cases hc : s.bitcnt = 0#4
  · have hp : s.pos.toNat < s.effEnd := by
      simp only [State.avb, hc, BitVec.toNat_ofNat] at h; omega
    refine ⟨_, _, takeBit_fetch hc hp, ?_, rfl, rfl⟩
    obtain ⟨d, hd⟩ : ∃ d, s.effEnd - s.pos.toNat = d + 1 := ⟨s.effEnd - s.pos.toNat - 1, by omega⟩
    have he : s.effEnd - (s.pos.toNat + 1) = d := by omega
    simp only [State.rawBits, State.effEnd, State.streamBits, State.byteAt] at *
    rw [hc, pos_succ (by simpa [State.effEnd] using hp), hd, he, List.range'_succ, List.flatMap_cons,
      byteBits_succ]
    simp
  · refine ⟨_, _, takeBit_buffered hc, ?_, rfl, rfl⟩
    simp only [State.rawBits, State.effEnd, State.streamBits, State.byteAt]
    rw [bitcnt_pred hc]
    obtain ⟨c, e⟩ : ∃ c, s.bitcnt.toNat = c + 1 := ⟨s.bitcnt.toNat - 1, by have := bitcnt_ne_zero hc; omega⟩
    rw [e, byteBits_succ]
    simp

theorem bitsToNat_acc (v : Nat) (bs : List Bool) :
    bs.foldl (fun v b => 2 * v + b.toNat) v = v * 2 ^ bs.length + bitsToNat bs := by
  induction bs generalizing v with
  | nil => simp [bitsToNat]
  | cons b bs ih =>
    have h0 : bitsToNat (b :: bs) = b.toNat * 2 ^ bs.length + bitsToNat bs := by
      rw [← ih]; simp [bitsToNat]
    rw [List.foldl_cons, List.length_cons, ih, h0, Nat.pow_succ, Nat.add_mul, Nat.mul_comm 2 v,
      Nat.mul_assoc, Nat.mul_comm 2, Nat.add_assoc]

theorem bitsToNat_cons (b : Bool) (bs : List Bool) :
    bitsToNat (b :: bs) = b.toNat * 2 ^ bs.length + bitsToNat bs := by
  have := bitsToNat_acc b.toNat bs
  simpa [bitsToNat] using this

theorem bitsToNat_append (as bs : List Bool) :
    bitsToNat (as ++ bs) = bitsToNat as * 2 ^ bs.length + bitsToNat bs := by
  rw [bitsToNat, List.foldl_append, bitsToNat_acc]; rfl

theorem bitsToNat_lt (bs : List Bool) : bitsToNat bs < 2 ^ bs.length := by
  induction bs with
  | nil => simp [bitsToNat]
  | cons b bs ih =>
    rw [bitsToNat_cons, List.length_cons, Nat.pow_succ]
    cases b <;> simp <;> omega

/-- `afterBits` with the escape flag kept: what TakeBits leaves. -/
def State.tookBits (s : State) (n : Nat) : State := { s.afterBits n with esc := s.esc }

theorem State.afterBits_eq_tookBits (s : State) (n : Nat) :
    s.afterBits n = s.rawEntry.tookBits n := rfl

theorem tookBits_zero (s : State) : s.tookBits 0 = s := by
  have h : s.bytesFor 0 = 0 := by simp [State.bytesFor]
  simp [State.tookBits, State.afterBits, h]

/-- A field that `n` bits take lies before E. -/
theorem bytesFor_le {s : State} {n : Nat} (h : n ≤ s.avb) : s.bytesFor n ≤ s.effEnd - s.pos.toNat := by
  simp only [State.avb] at h
  simp only [State.bytesFor]
  omega

theorem tookBits_pos {s : State} {n : Nat} (h : n ≤ s.avb) :
    (s.tookBits n).pos.toNat = s.pos.toNat + s.bytesFor n := by
  have h1 := bytesFor_le h
  have h2 := s.effEnd_lt
  have h3 := s.pos.isLt
  show (BitVec.ofNat 32 (s.pos.toNat + s.bytesFor n)).toNat = _
  rw [BitVec.toNat_ofNat]
  exact Nat.mod_eq_of_lt (by omega)

theorem tookBits_bitcnt (s : State) (n : Nat) : (s.tookBits n).bitcnt.toNat =
    if n ≤ s.bitcnt.toNat then s.bitcnt.toNat - n else 8 * s.bytesFor n - (n - s.bitcnt.toNat) := by
  have h := s.bitcnt.isLt
  show (if n ≤ s.bitcnt.toNat then BitVec.ofNat 4 (s.bitcnt.toNat - n)
    else BitVec.ofNat 4 (8 * s.bytesFor n - (n - s.bitcnt.toNat)) : BitVec 4).toNat = _
  simp only [State.bytesFor]
  split <;> rw [BitVec.toNat_ofNat] <;> exact Nat.mod_eq_of_lt (by omega)

theorem takeBit_tookBits {s : State} (h : 1 ≤ s.avb) : ∃ b, takeBit s = .ok (b, s.tookBits 1) := by
  by_cases hc : s.bitcnt = 0#4
  · have hp : s.pos.toNat < s.effEnd := by
      simp only [State.avb, hc, BitVec.toNat_ofNat] at h; omega
    have hb : s.bytesFor 1 = 1 := by simp [State.bytesFor, hc]
    refine ⟨(s.byteAt s.pos.toNat).getLsbD 7, (takeBit_fetch hc hp).trans ?_⟩
    simp [State.tookBits, State.afterBits, hb, hc, pos_add_one hp]
  · have h1 := bitcnt_ne_zero hc
    have hb : s.bytesFor 1 = 0 := by simp only [State.bytesFor]; omega
    refine ⟨s.bitbuf.getLsbD (s.bitcnt.toNat - 1), (takeBit_buffered hc).trans ?_⟩
    have e : s.bitcnt - 1#4 = BitVec.ofNat 4 (s.bitcnt.toNat - 1) := by
      apply BitVec.eq_of_toNat_eq
      have := s.bitcnt.isLt
      rw [bitcnt_pred hc, BitVec.toNat_ofNat, Nat.mod_eq_of_lt (by omega)]
    simp [State.tookBits, State.afterBits, hb, h1, e]

/-- Taking `n` bits and then `m` is taking `n + m`. -/
theorem tookBits_add {s : State} {n m : Nat} (h : n + m ≤ s.avb) :
    (s.tookBits n).tookBits m = s.tookBits (n + m) := by
  have hp := tookBits_pos (s := s) (n := n) (by omega)
  have hc := tookBits_bitcnt s n
  have hb : s.bytesFor n + (s.tookBits n).bytesFor m = s.bytesFor (n + m) := by
    simp only [State.bytesFor] at hc ⊢
    rw [hc]; split <;> omega
  have e1 : (s.tookBits n).pos.toNat + (s.tookBits n).bytesFor m = s.pos.toNat + s.bytesFor (n + m) := by
    omega
  have e2 : ∀ a, (s.tookBits n).byteAt a = s.byteAt a := fun _ => rfl
  have e3 : (s.tookBits n).bitbuf = if n ≤ s.bitcnt.toNat then s.bitbuf
      else s.byteAt (s.pos.toNat + s.bytesFor n - 1) := rfl
  have hm : (if m ≤ (s.tookBits n).bitcnt.toNat then (s.tookBits n).bitbuf
      else s.byteAt (s.pos.toNat + s.bytesFor (n + m) - 1)) =
      if n + m ≤ s.bitcnt.toNat then s.bitbuf
      else s.byteAt (s.pos.toNat + s.bytesFor (n + m) - 1) := by
    rw [e3, hc]
    simp only [State.bytesFor] at hb ⊢
    by_cases h1 : n ≤ s.bitcnt.toNat
    · simp only [h1, if_true]
      by_cases h2 : n + m ≤ s.bitcnt.toNat
      · rw [if_pos (by omega), if_pos h2]
      · rw [if_neg (by omega), if_neg h2]
    · simp only [h1, if_false]
      rw [if_neg (by omega : ¬ n + m ≤ s.bitcnt.toNat)]
      split
      · congr 2
        omega
      · rfl
  have hn : (if m ≤ (s.tookBits n).bitcnt.toNat then BitVec.ofNat 4 ((s.tookBits n).bitcnt.toNat - m)
      else BitVec.ofNat 4 (8 * (s.tookBits n).bytesFor m - (m - (s.tookBits n).bitcnt.toNat))) =
      if n + m ≤ s.bitcnt.toNat then BitVec.ofNat 4 (s.bitcnt.toNat - (n + m))
      else BitVec.ofNat 4 (8 * s.bytesFor (n + m) - (n + m - s.bitcnt.toNat)) := by
    rw [← hb]
    simp only [State.bytesFor]
    rw [hc]
    simp only [State.bytesFor]
    by_cases h1 : n ≤ s.bitcnt.toNat
    · simp only [h1, if_true]
      by_cases h2 : n + m ≤ s.bitcnt.toNat
      · rw [if_pos (by omega), if_pos h2]; congr 1; omega
      · rw [if_neg (by omega), if_neg h2]; congr 1; omega
    · simp only [h1, if_false]
      rw [if_neg (by omega : ¬ n + m ≤ s.bitcnt.toNat)]
      split <;> (congr 1; omega)
  unfold State.tookBits State.afterBits at *
  simp only [e1, e2, hm, hn]

/-- TakeBits(n): the first `n` raw bits as a number, the others stay (40_raw_bit_reads R82). -/
theorem takeBitsFrom_ok {n : Nat} : ∀ {v : Nat} {s : State}, n ≤ s.avb →
    takeBitsFrom n v s = .ok (v * 2 ^ n + bitsToNat (s.rawBits.take n), s.tookBits n)
      ∧ (s.tookBits n).rawBits = s.rawBits.drop n := by
  induction n with
  | zero => intro v s _; simp [takeBitsFrom, tookBits_zero, bitsToNat, pure, Except.pure]
  | succ n ih =>
    intro v s h
    obtain ⟨b, s', hs, hr, -, -⟩ := takeBit_ok (s := s) (by omega)
    obtain ⟨b', hs'⟩ := takeBit_tookBits (s := s) (by omega)
    obtain ⟨rfl, rfl⟩ : b = b' ∧ s' = s.tookBits 1 := by
      have := hs.symm.trans hs'
      simpa using this
    have hl : (s.tookBits 1).rawBits.length + 1 = s.avb := by
      rw [← rawBits_length s, hr, List.length_cons]
    rw [rawBits_length] at hl
    obtain ⟨h1, h2⟩ := ih (v := 2 * v + b.toNat) (s := s.tookBits 1) (by omega)
    have hadd := tookBits_add (s := s) (n := 1) (m := n) (by omega)
    rw [Nat.add_comm 1 n] at hadd
    rw [hadd] at h1 h2
    constructor
    · rw [takeBitsFrom, hs]
      show takeBitsFrom n (2 * v + b.toNat) (s.tookBits 1) = _
      rw [h1, hr, List.take_succ_cons, bitsToNat_cons]
      congr 2
      rw [List.length_take, rawBits_length, Nat.min_eq_left (by omega), Nat.pow_succ, Nat.add_mul]
      rw [Nat.mul_comm 2 v, Nat.mul_assoc, Nat.mul_comm 2, Nat.add_assoc]
    · rw [h2, hr, List.drop_succ_cons]

theorem takeBits_ok {n : Nat} {s : State} (h : n ≤ s.avb) :
    takeBits n s = .ok (bitsToNat (s.rawBits.take n), s.tookBits n) := by
  rw [takeBits, (takeBitsFrom_ok h).1]; simp

/-- Reading `n` bits drops them from the raw bits. -/
theorem afterBits_rawBits {n : Nat} {s : State} (h : n ≤ s.avb) :
    (s.afterBits n).rawBits = s.rawBits.drop n :=
  (takeBitsFrom_ok (v := 0) (s := s.rawEntry) h).2

/-- The big-endian number of the `k` bytes from address `a` on, after `v`. -/
def bytesToNat (s : State) : Nat → Nat → Nat → Nat
  | _, 0, v => v
  | a, k + 1, v => bytesToNat s (a + 1) k (256 * v + (s.byteAt a).toNat)

theorem bytesToNat_congr {s t : State} (h : t.mem = s.mem) (a k v : Nat) :
    bytesToNat t a k v = bytesToNat s a k v := by
  induction k generalizing a v with
  | zero => rfl
  | succ k ih => simp only [bytesToNat, State.byteAt, h, ih]

/-- TakeBytes(k): `k` bytes from `pos` on (41_raw_byte_reads R100). -/
theorem takeBytesFrom_ok {k : Nat} : ∀ {v : Nat} {s : State}, s.pos.toNat + k ≤ s.effEnd →
    takeBytesFrom k v s = .ok (bytesToNat s s.pos.toNat k v,
      { s with pos := BitVec.ofNat 32 (s.pos.toNat + k) }) := by
  induction k with
  | zero => intro v s _; simp [takeBytesFrom, bytesToNat, pure, Except.pure]
  | succ k ih =>
    intro v s h
    have hp : s.pos.toNat < s.effEnd := by omega
    rw [takeBytesFrom, fetchByte_ok hp]
    show takeBytesFrom k _ { s with pos := s.pos + 1#32 } = _
    have hs := pos_succ hp
    rw [ih (by show (s.pos + 1#32).toNat + k ≤ s.effEnd; omega)]
    simp only [hs, bytesToNat]
    rw [bytesToNat_congr (s := s) (t := { s with pos := s.pos + 1#32 }) rfl, Nat.add_assoc,
      Nat.add_comm 1 k]

theorem takeBytes_ok {k : Nat} {s : State} (h : s.pos.toNat + k ≤ s.effEnd) :
    takeBytes k s = .ok (bytesToNat s s.pos.toNat k 0,
      { s with pos := BitVec.ofNat 32 (s.pos.toNat + k) }) := takeBytesFrom_ok h

/-- The shape of READ_BITS and READ_SBITS: both of its ends. -/
theorem readField_eq (n : Nat) (ext : Nat → Word) (s : State) :
    readField n ext s = .next (if s.avb < n then s.exhausted
      else (s.afterBits n).answered (ext (bitsToNat (s.rawBits.take n)))) := by
  unfold readField
  by_cases h : s.avb < n
  · simp only [State.rawEntry_avb, h, if_true]; rfl
  · have hn : n ≤ s.rawEntry.avb := by simpa using h
    simp only [State.rawEntry_avb, h, if_false, takeBits_ok hn]; rfl

/-- The shape of a byte read: both of its ends. -/
theorem readBytes_eq (k : Nat) (ext : Nat → Word) (s : State) :
    readBytes k ext s = .next (if s.pos.toNat + k > s.effEnd then s.exhausted
      else (s.afterBytes k).answered (ext (bytesToNat s s.pos.toNat k 0))) := by
  have he : s.byteEntry.effEnd = s.effEnd := rfl
  have hb := bytesToNat_congr (s := s) (t := s.byteEntry) rfl s.pos.toNat k 0
  unfold readBytes
  by_cases h : s.pos.toNat + k > s.effEnd
  · simp only [State.byteEntry_pos, he, h, if_true]; rfl
  · have hk : s.byteEntry.pos.toNat + k ≤ s.byteEntry.effEnd := by simpa using h
    simp only [State.byteEntry_pos, he, h, if_false, takeBytes_ok hk, hb]; rfl

/-- Every byte before E counts as consumed after a failure. -/
theorem exhausted_pos_toNat (s : State) : s.exhausted.pos.toNat = max s.pos.toNat s.effEnd := by
  have h1 := s.effEnd_lt
  have h2 := s.pos.isLt
  rw [State.exhausted_pos, BitVec.toNat_ofNat, Nat.mod_eq_of_lt (by omega)]

/-- After a failure no raw bit is left (40_raw_bit_reads R84). -/
theorem exhausted_avb (s : State) : s.exhausted.avb = 0 := by
  simp only [State.avb, State.exhausted_effEnd, State.exhausted_bitcnt, exhausted_pos_toNat,
    BitVec.toNat_ofNat]
  omega

theorem avb_eq_zero {s : State} : s.avb = 0 ↔ s.bitcnt = 0#4 ∧ s.effEnd ≤ s.pos.toNat := by
  simp only [State.avb]
  constructor
  · intro h; exact ⟨BitVec.eq_of_toNat_eq (by simp; omega), by omega⟩
  · rintro ⟨h, h'⟩; rw [h, BitVec.toNat_ofNat]; omega

theorem afterBits_pos_toNat {n : Nat} {s : State} (h : n ≤ s.avb) :
    (s.afterBits n).pos.toNat = s.pos.toNat + s.bytesFor n := tookBits_pos h

theorem afterBits_bitcnt_toNat (s : State) (n : Nat) : (s.afterBits n).bitcnt.toNat =
    if n ≤ s.bitcnt.toNat then s.bitcnt.toNat - n else 8 * s.bytesFor n - (n - s.bitcnt.toNat) :=
  tookBits_bitcnt s n

/-- Reading `n` bits lowers AVB by `n`. -/
theorem afterBits_avb {n : Nat} {s : State} (h : n ≤ s.avb) : (s.afterBits n).avb + n = s.avb := by
  have := congrArg List.length (afterBits_rawBits h)
  rw [rawBits_length, List.length_drop, rawBits_length] at this
  omega

theorem afterBytes_pos_toNat {k : Nat} {s : State} (h : s.pos.toNat + k ≤ s.effEnd) :
    (s.afterBytes k).pos.toNat = s.pos.toNat + k := by
  have := s.effEnd_lt
  rw [State.afterBytes_pos, BitVec.toNat_ofNat, Nat.mod_eq_of_lt (by omega)]

/-- RDATA and CODE are read off the response word (30_encoding R64). -/
theorem word_rdata (r : Response) : r.word.extractLsb' 0 32 = r.rdata := by
  apply BitVec.eq_of_getLsbD_eq
  intro k hk
  have := BitVec.getLsbD_append (x := r.code.bits) (y := r.rdata) (i := k)
  rw [BitVec.getLsbD_extractLsb']
  show (decide (k < 32) && (r.code.bits ++ r.rdata).getLsbD (0 + k)) = _
  rw [Nat.zero_add, this]; simp [hk]

theorem word_code (r : Response) : r.word.extractLsb' 32 2 = r.code.bits := by
  apply BitVec.eq_of_getLsbD_eq
  intro k hk
  have := BitVec.getLsbD_append (x := r.code.bits) (y := r.rdata) (i := 32 + k)
  rw [BitVec.getLsbD_extractLsb']
  show (decide (k < 2) && (r.code.bits ++ r.rdata).getLsbD (32 + k)) = _
  rw [this]; simp [hk]

end Sys2Proof.Machine
end

