-- ==== Sys2Proof/Laws/Exec.lean ====
section
/-! SUPPORT. What each command can do, said once: every meaning answers the next state `effect i s`. Claims
about all commands split on the command and rewrite with `exec_effect`. -/

namespace Sys2Proof.Machine

/-- A raw bit read of `n` bits. -/
def fieldEffect (n : Nat) (ext : Nat → Word) (s : State) : State :=
  if s.avb < n then s.exhausted else (s.afterBits n).answered (ext (bitsToNat (s.rawBits.take n)))

/-- A byte read of `k` bytes. -/
def bytesEffect (k : Nat) (ext : Nat → Word) (s : State) : State :=
  if s.pos.toNat + k > s.effEnd then s.exhausted
  else (s.afterBytes k).answered (ext (bytesToNat s s.pos.toNat k 0))

/-- ESC_START, by how many bytes are readable. -/
def escStartEffect (s : State) : State :=
  if s.pos.toNat + 2 ≤ s.effEnd then
    ({ s with
        bitcnt := 0#4, b0 := s.byteAt s.pos.toNat, b1 := s.byteAt (s.pos.toNat + 1)
        pos := s.pos + 2#32, esc := true } : State).answered
      (escData false false 8#4 (s.byteAt s.pos.toNat))
  else if s.pos.toNat + 1 = s.effEnd then
    ({ s with
        bitcnt := 0#4, b0 := s.byteAt s.pos.toNat, b1 := 0xFF#8
        pos := s.pos + 1#32, fill := true, esc := true } : State).answered
      (escData true false 8#4 (s.byteAt s.pos.toNat))
  else
    ({ s with
        bitcnt := 0#4, b0 := 0xFF#8, b1 := 0xFF#8, fill := true, esc := true } : State).answered
      (escData true false 8#4 0xFF#8)

/-- ESC_BYTEIN: illegal, at a marker, with a byte readable, with none. -/
def escByteinEffect (s : State) : State :=
  if s.esc then
    if s.atMarker then s.answered (escData false true 8#4 0xFF#8)
    else if s.pos.toNat < s.effEnd then
      ({ s with b0 := s.b1, b1 := s.byteAt s.pos.toNat, pos := s.pos + 1#32 } : State).answered
        (escData false false (escCt s.b0) s.b1)
    else
      ({ s with b0 := s.b1, b1 := 0xFF#8, fill := true } : State).answered
        (escData true false (escCt s.b0) s.b1)
  else s.rejected

/-- The state each command leaves. -/
def effect : Instr → State → State
  | .readBit, s => fieldEffect 1 zext32 s
  | .readBits n, s => if n.toNat ≤ 32 then fieldEffect n.toNat zext32 s else s.rejected
  | .readSbits n, s =>
    if 1 ≤ n.toNat ∧ n.toNat ≤ 32 then fieldEffect n.toNat (sext n.toNat) s else s.rejected
  | .readByte, s => bytesEffect 1 zext32 s
  | .readU16, s => bytesEffect 2 zext32 s
  | .readU32, s => bytesEffect 4 zext32 s
  | .readS8, s => bytesEffect 1 (sext 8) s
  | .readS16, s => bytesEffect 2 (sext 16) s
  | .readS32, s => bytesEffect 4 (sext 32) s
  | .align, s => s.byteEntry.answered 0#32
  | .skip n, s =>
    if s.pos.toNat + n.toNat > s.effEnd then s.exhausted else (s.afterBytes n.toNat).answered 0#32
  | .setLim a, s => ({ s with lim := a } : State).answered 0#32
  | .getPos, s => s.answered s.pos
  | .getStatus, s => s.answered s.status
  | .escStart, s => escStartEffect s
  | .escBytein, s => escByteinEffect s

theorem execReadBit_effect (s : State) : execReadBit s = .next (fieldEffect 1 zext32 s) := by
  have h := readField_eq 1 zext32 s
  rw [fieldEffect, ← h, readField, execReadBit]
  by_cases ha : s.avb < 1
  · simp [ha]
  · obtain ⟨b, hb⟩ := takeBit_tookBits (s := s.rawEntry) (by rw [State.rawEntry_avb]; omega)
    have ht : takeBits 1 s.rawEntry = .ok (b.toNat, s.rawEntry.tookBits 1) := by
      rw [takeBits, takeBitsFrom, hb]
      show takeBitsFrom 0 (2 * 0 + b.toNat) _ = _
      rw [takeBitsFrom]; simp [pure, Except.pure]
    simp only [State.rawEntry_avb, ha, if_false, hb, ht]; rfl

theorem execSkip_effect (n : Word) (s : State) : execSkip n s =
    .next (if s.pos.toNat + n.toNat > s.effEnd then s.exhausted else (s.afterBytes n.toNat).answered 0#32) := by
  have he : s.byteEntry.effEnd = s.effEnd := rfl
  unfold execSkip
  by_cases h : s.pos.toNat + n.toNat > s.effEnd
  · simp only [State.byteEntry_pos, he, h, if_true]; rfl
  · simp only [State.byteEntry_pos, he, h, if_false]; rfl

theorem execEscStart_effect (s : State) : execEscStart s = .next (escStartEffect s) := by
  have hE : ∀ c : BitVec 4, ({ s with bitcnt := c } : State).effEnd = s.effEnd := fun _ => rfl
  unfold execEscStart escStartEffect
  rw [escFetch_eq]
  by_cases h0 : s.pos.toNat < s.effEnd
  · have hs := pos_succ h0
    have h2 : s.pos + 1#32 + 1#32 = s.pos + 2#32 := by rw [BitVec.add_assoc]; rfl
    simp only [hE, h0, if_true, bind, Except.bind]
    rw [escFetch_eq]
    by_cases h1 : s.pos.toNat + 2 ≤ s.effEnd
    · have h1' : s.pos.toNat + 1 < s.effEnd := by omega
      have hE' : ({ s with pos := s.pos + 1#32, bitcnt := 0#4 } : State).effEnd = s.effEnd := rfl
      simp only [hs, hE', h1', h1, if_true, h2]; rfl
    · have h1' : ¬ s.pos.toNat + 1 < s.effEnd := by omega
      have h1'' : s.pos.toNat + 1 = s.effEnd := by omega
      have hE' : ({ s with pos := s.pos + 1#32, bitcnt := 0#4 } : State).effEnd = s.effEnd := rfl
      simp only [hs, hE', h1', h1, if_false]
      rw [if_pos h1'']; rfl
  · have h1 : ¬ s.pos.toNat + 2 ≤ s.effEnd := by omega
    have h1' : ¬ s.pos.toNat + 1 = s.effEnd := by omega
    simp only [hE, h0, if_false, bind, Except.bind]
    rw [escFetch_eq]
    have hE' : ({ s with bitcnt := 0#4, fill := true } : State).effEnd = s.effEnd := rfl
    simp only [hE', h0, h1, h1', if_false]; rfl

theorem execEscBytein_effect (s : State) : execEscBytein s = .next (escByteinEffect s) := by
  unfold execEscBytein escByteinEffect
  by_cases he : s.esc = true
  · by_cases hm : s.atMarker = true
    · simp only [he, hm, if_true]; rfl
    · have hE : ({ s with b0 := s.b1 } : State).effEnd = s.effEnd := rfl
      rw [if_pos he, if_neg hm, if_pos he, if_neg hm, escFetch_eq]
      by_cases h : s.pos.toNat < s.effEnd
      · simp only [hE, h, if_true]; rfl
      · simp only [hE, h, if_false]; rfl
  · rw [if_neg he, if_neg he]; rfl

/-- Every meaning answers a next state, the one of `effect`. -/
theorem exec_effect (i : Instr) (s : State) : exec i s = .next (effect i s) := by
  cases i with
  | readBit => exact execReadBit_effect s
  | readBits n =>
    show (if n.toNat ≤ 32 then readField n.toNat zext32 s else .next s.illegal) =
      .next (if n.toNat ≤ 32 then fieldEffect n.toNat zext32 s else s.rejected)
    split
    · exact readField_eq _ _ s
    · rfl
  | readSbits n =>
    show (if 1 ≤ n.toNat ∧ n.toNat ≤ 32 then readField n.toNat (sext n.toNat) s else .next s.illegal) =
      .next (if 1 ≤ n.toNat ∧ n.toNat ≤ 32 then fieldEffect n.toNat (sext n.toNat) s else s.rejected)
    split
    · exact readField_eq _ _ s
    · rfl
  | readByte => exact readBytes_eq 1 zext32 s
  | readU16 => exact readBytes_eq 2 zext32 s
  | readU32 => exact readBytes_eq 4 zext32 s
  | readS8 => exact readBytes_eq 1 (sext 8) s
  | readS16 => exact readBytes_eq 2 (sext 16) s
  | readS32 => exact readBytes_eq 4 (sext 32) s
  | align => rfl
  | skip n => exact execSkip_effect n s
  | setLim a => rfl
  | getPos => rfl
  | getStatus => rfl
  | escStart => exact execEscStart_effect s
  | escBytein => exact execEscBytein_effect s

/-- The state a meaning leaves is the one of `effect`. -/
theorem exec_next {i : Instr} {s t : State} (h : exec i s = .next t) : t = effect i s := by
  rw [exec_effect] at h; injection h with h; exact h.symm

/-- A presented word is taken from the port and run. -/
theorem step_command {s : State} {w : CmdWord} {rest : List Input} (h : s.inbox = .command w :: rest) :
    step s = runWord w { s with inbox := rest } := by
  rw [step, h]

/-- A run goes on from the state a step answers. -/
theorem runFor_next {s t : State} {k : Nat} (h : step s = .next t) : runFor (k + 1) s = runFor k t := by
  rw [runFor, h]

/-- ESC_BYTEIN at a marker answers the marker and changes no other state (43_escape_path R144). -/
theorem effect_escBytein_marker {s : State} (he : s.esc = true) (hm : s.atMarker = true) :
    effect .escBytein s = s.answered (escData false true 8#4 0xFF#8) := by
  rw [effect, escByteinEffect, if_pos he, if_pos hm]

/-- What a command leaves is a failure, a rejection or an answer OK. -/
theorem effect_shape (i : Instr) (s : State) :
    effect i s = s.exhausted ∨ effect i s = s.rejected ∨ ∃ v, (effect i s).resp = some ⟨.ok, v⟩ := by
  cases i <;>
    simp only [effect, fieldEffect, bytesEffect, escStartEffect, escByteinEffect] <;>
    (repeat' split) <;> simp

end Sys2Proof.Machine
end

