-- ==== Sys2Proof/Laws/PerInstr.lean ====
section
/-! SUPPORT. For each command, the fields of its word (30_encoding R60): OP is the opcode of R63, ARG is the
argument in its form (R62). -/

namespace Sys2Proof.Laws.EncodeFields

/-- The word of `i` holds the opcode of R63 in bits 39:32 and its ARG in bits 31:0, and nothing else. -/
def Statement (i : Instr) : Prop :=
  opField (encode i) = i.op ∧ argField (encode i) = i.arg

theorem readBit : Statement .readBit := encode_fields _ _
theorem readBits (n : BitVec 6) : Statement (.readBits n) := encode_fields _ _
theorem readSbits (n : BitVec 6) : Statement (.readSbits n) := encode_fields _ _
theorem readByte : Statement .readByte := encode_fields _ _
theorem readU16 : Statement .readU16 := encode_fields _ _
theorem readU32 : Statement .readU32 := encode_fields _ _
theorem readS8 : Statement .readS8 := encode_fields _ _
theorem readS16 : Statement .readS16 := encode_fields _ _
theorem readS32 : Statement .readS32 := encode_fields _ _
theorem align : Statement .align := encode_fields _ _
theorem skip (n : Word) : Statement (.skip n) := encode_fields _ _
theorem setLim (a : Word) : Statement (.setLim a) := encode_fields _ _
theorem getPos : Statement .getPos := encode_fields _ _
theorem getStatus : Statement .getStatus := encode_fields _ _
theorem escStart : Statement .escStart := encode_fields _ _
theorem escBytein : Statement .escBytein := encode_fields _ _

end Sys2Proof.Laws.EncodeFields
end

