-- ==== Sys2Proof/Tests/Slice0.lean ====
section
/-! SUPPORT. Tests of one step, with results taken from the spec (the rule's worked example or a row of
95_test_vectors, named in each comment), and for every statement with hypotheses a witness that meets them. -/

namespace Sys2Proof.Tests

open Sys2Proof Sys2Proof.Machine

/-! ### Well-formed commands (30_encoding R62, R66) -/

/-- 32 is the largest count of READ_BITS, 0 is one. -/
theorem test_wf_readBits : (Instr.readBits 32#6).wf = true ∧ (Instr.readBits 0#6).wf = true
    ∧ (Instr.readBits 33#6).wf = false := by decide

/-- READ_SBITS has no count 0. -/
theorem test_wf_readSbits : (Instr.readSbits 1#6).wf = true ∧ (Instr.readSbits 32#6).wf = true
    ∧ (Instr.readSbits 0#6).wf = false ∧ (Instr.readSbits 33#6).wf = false := by decide

/-! ### Words written out from the map of 30_encoding R63 and the vectors of 95_test_vectors -/

theorem test_decode_readBit : decode 0x0100000000#40 = .ok .readBit := by rfl
theorem test_decode_readBits : decode 0x0200000020#40 = .ok (.readBits 32#6) := by rfl
theorem test_decode_readBits_zero : decode 0x0200000000#40 = .ok (.readBits 0#6) := by rfl
theorem test_decode_readSbits : decode 0x0300000005#40 = .ok (.readSbits 5#6) := by rfl
theorem test_decode_readByte : decode 0x0400000000#40 = .ok .readByte := by rfl
theorem test_decode_readU16 : decode 0x0500000000#40 = .ok .readU16 := by rfl
theorem test_decode_readU32 : decode 0x0600000000#40 = .ok .readU32 := by rfl
theorem test_decode_readS8 : decode 0x0700000000#40 = .ok .readS8 := by rfl
theorem test_decode_readS16 : decode 0x0800000000#40 = .ok .readS16 := by rfl
theorem test_decode_readS32 : decode 0x0900000000#40 = .ok .readS32 := by rfl
theorem test_decode_align : decode 0x1000000000#40 = .ok .align := by rfl
theorem test_decode_skip : decode 0x11FFFFFFFF#40 = .ok (.skip 0xFFFFFFFF#32) := by rfl
theorem test_decode_setLim : decode 0x1200000006#40 = .ok (.setLim 6#32) := by rfl
theorem test_decode_getPos : decode 0x1300000000#40 = .ok .getPos := by rfl
theorem test_decode_getStatus : decode 0x1400000000#40 = .ok .getStatus := by rfl
theorem test_decode_escStart : decode 0x2000000000#40 = .ok .escStart := by rfl
theorem test_decode_escBytein : decode 0x2100000000#40 = .ok .escBytein := by rfl

/-- The gaps of the opcode space (30_encoding R66). -/
theorem test_decode_unassigned :
    [0x00#8, 0x0A#8, 0x0F#8, 0x15#8, 0x1F#8, 0x22#8, 0xFF#8].map (fun op => decode (commandWord op 0#32))
      = List.replicate 7 (.error .unassignedOpcode) := by rfl

/-- ARG bits that must be 0, and counts out of range (30_encoding R66). -/
theorem test_decode_badArg : decode 0x0100000001#40 = .error .argNotZero
    ∧ decode 0x1480000000#40 = .error .argNotZero ∧ decode 0x0200000040#40 = .error .reservedArgBits
    ∧ decode 0x0380000001#40 = .error .reservedArgBits ∧ decode 0x0200000021#40 = .error .countOutOfRange
    ∧ decode 0x0300000000#40 = .error .countOutOfRange := ⟨rfl, rfl, rfl, rfl, rfl, rfl⟩

/-- The number of a table row, as opcode_table.json writes it. -/
theorem test_decodeTableWord : decodeTableWord 40 0x0200000007 = some (.readBits 7#6)
    ∧ decodeTableWord 40 0x0200000021 = none := ⟨rfl, rfl⟩

/-- The assembler's example, comments, blanks, hexadecimal and the pseudo-instructions (30_encoding R69,
R70; program P3 of 95_test_vectors). -/
theorem test_assembler : assembleLine "READ_BITS 5".toList = some [0x0200000005#40]
    ∧ assembleLine "LIM_OFF ; no limit".toList = some [0x12FFFFFFFF#40]
    ∧ assembleLine "SKIP 0xFFFFFFFF".toList = some [0x11FFFFFFFF#40]
    ∧ assembleLine "; nothing".toList = some [] := by decide

/-! ### One step each -/

/-- The block right after the host bound these bytes and reset it (70_reset R182). -/
def bound (bytes : List Byte) : State := (State.reset.bindStream bytes).resetRegs

/-- CODE, RDATA, `pos` and `bitcnt` after a command. -/
def answer (s : State) (i : Instr) : Option (Code × Word × Word × BitVec 4) :=
  match exec i s with
  | .next t => t.resp.map fun r => (r.code, r.rdata, t.pos, t.bitcnt)
  | .fault _ => none
  | .refused _ => none

/-- The same without RDATA, which is free on EXH, with `eos`. -/
def failure (s : State) (i : Instr) : Option (Code × Word × BitVec 4 × Bool) :=
  match exec i s with
  | .next t => t.resp.map fun r => (r.code, t.pos, t.bitcnt, t.eos)
  | .fault _ => none
  | .refused _ => none

/-- RDATA, `pos`, `b0`, `b1` and `fill` after an escape-path command. -/
def escAnswer (s : State) (i : Instr) : Option (Word × Word × Byte × Byte × Bool) :=
  match exec i s with
  | .next t => t.resp.map fun r => (r.rdata, t.pos, t.b0, t.b1, t.fill)
  | .fault _ => none
  | .refused _ => none

/-- `A5 3C` after READ_BIT. -/
def afterOneBit : State := { bound [0xA5#8, 0x3C#8] with pos := 1#32, bitbuf := 0xA5#8, bitcnt := 7#4 }

/-- `01 02 03 04 05` after READ_BITS 3. -/
def afterThreeBits : State :=
  { bound [1#8, 2#8, 3#8, 4#8, 5#8] with pos := 1#32, bitbuf := 1#8, bitcnt := 5#4 }

/-- `84 FF 80 FF AC` with the escape path active on `b0` and `b1`, `p` bytes taken. -/
def escAt (p : Word) (b0 b1 : Byte) : State :=
  { bound [0x84#8, 0xFF#8, 0x80#8, 0xFF#8, 0xAC#8] with pos := p, b0 := b0, b1 := b1, esc := true }

/-- Worked example of R85. -/
theorem test_readBit : answer (bound [0xA5#8]) .readBit = some (.ok, 1#32, 1#32, 7#4) := by decide

/-- Section 2.1, READ_BIT on the empty stream. -/
theorem test_readBit_exh : failure (bound []) .readBit = some (.exh, 0#32, 0#4, true) := by decide

/-- Worked example of R86: READ_BITS 10 after READ_BIT gives the bits of READ_BITS 3 and 7, 010 0101001. -/
theorem test_readBits : answer afterOneBit (.readBits 10#6) = some (.ok, 0x129#32, 2#32, 5#4) := by decide

/-- Section 2.1: 32 bits straddling five bytes. -/
theorem test_readBits_straddle :
    answer { bound [0x12#8, 0x34#8, 0x56#8, 0x78#8, 0x9A#8] with
      pos := 1#32, bitbuf := 0x12#8, bitcnt := 4#4 } (.readBits 32#6)
      = some (.ok, 0x23456789#32, 5#32, 4#4) := by decide

/-- Worked example of R87. -/
theorem test_readSbits : answer (bound [0xA5#8, 0x3C#8]) (.readSbits 3#6)
    = some (.ok, 0xFFFFFFFD#32, 1#32, 5#4) := by decide

/-- Section 2.1: n = 32 returns the bits unchanged. -/
theorem test_readSbits_32 : answer (bound [0x80#8, 0#8, 0#8, 0#8]) (.readSbits 32#6)
    = some (.ok, 0x80000000#32, 4#32, 0#4) := by decide

/-- Worked example of R101: the 7 bits left are discarded. -/
theorem test_readByte : answer afterOneBit .readByte = some (.ok, 0x3C#32, 2#32, 0#4) := by decide

/-- Section 2.2. -/
theorem test_readU16 : answer (bound [0x12#8, 0x34#8, 0x56#8]) .readU16
    = some (.ok, 0x1234#32, 2#32, 0#4) := by decide

/-- R102, corner case: with one byte readable the read fails and that byte is consumed. -/
theorem test_readU16_short : failure (bound [0x12#8]) .readU16 = some (.exh, 1#32, 0#4, true) := by decide

/-- Section 2.2, after READ_BITS 4. -/
theorem test_readU32 :
    answer { bound [0x12#8, 0x34#8, 0x56#8, 0x78#8, 0x9A#8] with
      pos := 1#32, bitbuf := 0x12#8, bitcnt := 4#4 } .readU32
      = some (.ok, 0x3456789A#32, 5#32, 0#4) := by decide

/-- Corner cases of R104. -/
theorem test_readS8 : answer (bound [0x80#8]) .readS8 = some (.ok, 0xFFFFFF80#32, 1#32, 0#4)
    ∧ answer (bound [0x7F#8]) .readS8 = some (.ok, 0x7F#32, 1#32, 0#4) := by decide

/-- Worked example of R105. -/
theorem test_readS16 : answer (bound [0xFF#8, 0xFE#8]) .readS16
    = some (.ok, 0xFFFFFFFE#32, 2#32, 0#4) := by decide

/-- Section 2.2. -/
theorem test_readS32 : answer (bound [0x80#8, 0#8, 0#8, 1#8]) .readS32
    = some (.ok, 0x80000001#32, 4#32, 0#4) := by decide

/-- Worked example of R121. -/
theorem test_align : answer afterThreeBits .align = some (.ok, 0#32, 1#32, 0#4) := by decide

/-- Worked example of R122. -/
theorem test_skip : answer (bound [1#8, 2#8, 3#8, 4#8, 5#8]) (.skip 3#32) = some (.ok, 0#32, 3#32, 0#4) := by
  decide

/-- Section 2.3: the largest SKIP does not wrap. -/
theorem test_skip_largest : failure afterThreeBits (.skip 0xFFFFFFFF#32)
    = some (.exh, 5#32, 0#4, true) := by decide

/-- R123, corner case: `lim` below `pos`, the bits of `bitbuf` stay readable. -/
theorem test_setLim : answer { afterThreeBits with lim := 0#32 } (.readBits 5#6) = some (.ok, 1#32, 1#32, 0#4)
    ∧ answer afterThreeBits (.setLim 0#32) = some (.ok, 0#32, 1#32, 5#4) := by decide

/-- Worked example of R124. -/
theorem test_getPos : answer afterThreeBits .getPos = some (.ok, 1#32, 1#32, 5#4) := by decide

/-- Worked example of R125. -/
theorem test_getStatus : answer afterThreeBits .getStatus = some (.ok, 0x50#32, 1#32, 5#4)
    ∧ answer { afterThreeBits with ill := true } .getStatus = some (.ok, 0x54#32, 1#32, 5#4) := by decide

/-- Section 2.4: ESC_START after READ_BIT. -/
theorem test_escStart : escAnswer { bound [0xA5#8, 0x3C#8, 0x7E#8] with
    pos := 1#32, bitbuf := 0xA5#8, bitcnt := 7#4 } .escStart
    = some (0x083C#32, 3#32, 0x3C#8, 0x7E#8, false) := by decide

/-- R142, corner case: no byte readable. -/
theorem test_escStart_end : escAnswer { bound [1#8, 2#8, 3#8] with pos := 3#32 } .escStart
    = some (0x28FF#32, 3#32, 0xFF#8, 0xFF#8, true) := by decide

/-- Section 2.4: the byte after 0xFF carries 7 bits. -/
theorem test_escBytein_stuffed : escAnswer (escAt 3#32 0xFF#8 0x80#8) .escBytein
    = some (0x0780#32, 4#32, 0x80#8, 0xFF#8, false) := by decide

/-- Section 2.4: a marker. -/
theorem test_escBytein_marker : escAnswer (escAt 5#32 0xFF#8 0xAC#8) .escBytein
    = some (0x18FF#32, 5#32, 0xFF#8, 0xAC#8, false) := by decide

/-- `12` after ESC_START: a fill byte is in `b1`. -/
def afterFill : State :=
  { bound [0x12#8] with pos := 1#32, b0 := 0x12#8, b1 := 0xFF#8, esc := true, fill := true }

/-- R145: with nothing readable one ESC_BYTEIN advances, then the path is at a marker. -/
theorem test_fillByte : escAnswer afterFill .escBytein = some (0x28FF#32, 1#32, 0xFF#8, 0xFF#8, true)
    ∧ escAnswer { afterFill with b0 := 0xFF#8 } .escBytein
      = some (0x18FF#32, 1#32, 0xFF#8, 0xFF#8, true) := by decide

/-- R141 and R143 by hand, `12 34` with `lim` at 1 through ESC_START and then raised: the byte 34 is fetched
(log entry 11). -/
theorem test_raisedLimit : escAnswer { bound [0x12#8, 0x34#8] with
    pos := 1#32, b0 := 0x12#8, b1 := 0xFF#8, esc := true, fill := true } .escBytein
    = some (0x08FF#32, 2#32, 0xFF#8, 0x34#8, true) := by decide

/-- Section 2.1: an illegal word sets `ill`, answers ILL and 0 and leaves the rest. -/
theorem test_illegalWord :
    (match step (afterOneBit.withFetchWord 40 0x0200000021) with
      | .next t => some (t.resp, t.ill, t.pos, t.bitcnt)
      | .fault _ => none
      | .refused _ => none) = some (some ⟨.ill, 0#32⟩, true, 1#32, 7#4) := by decide

/-- The word that the host puts on the port is run by the very next step. -/
theorem test_withFetchWord :
    step (State.reset.withFetchWord 40 0x1200000006) = exec (.setLim 6#32) State.reset := by rfl

/-! ### Witnesses: for each statement with hypotheses, a state and operands that meet them, at the ends of
their ranges, for each clause -/

/-- A word on the port before `rest`. -/
def presented (s : State) (w : CmdWord) (rest : List Input) : State := { s with inbox := .command w :: rest }

/-- Four bytes readable: exactly what a READ_U32 or READ_BITS 32 takes. -/
def fourBytes : State := bound [0x80#8, 0xFF#8, 0x00#8, 0x7F#8]

/-- DecodeMatchesOpcodeMap, the clause on unlisted opcodes, at both ends of the space. -/
theorem witness_DecodeMatchesOpcodeMap : (0x0000000000#40).extractLsb' 32 8 ∉ opcodes
    ∧ (0xFF00000000#40).extractLsb' 32 8 ∉ opcodes ∧ (0x0A00000000#40).extractLsb' 32 8 ∉ opcodes := by decide

theorem witness_DecodeOfEncode : (Instr.readBits 32#6).wf = true ∧ (Instr.readSbits 1#6).wf = true
    ∧ (Instr.skip 0xFFFFFFFF#32).wf = true := by decide

theorem witness_EncodeOfDecode : decode 0x0300000020#40 = .ok (.readSbits 32#6)
    ∧ decode 0x12FFFFFFFF#40 = .ok (.setLim 0xFFFFFFFF#32) := ⟨rfl, rfl⟩

theorem witness_PseudoInstructionsExpand : (1 ≤ (1#6).toNat ∧ (1#6).toNat ≤ 32)
    ∧ 1 ≤ (32#6).toNat ∧ (32#6).toNat ≤ 32 := by decide

theorem witness_ResetInputRestoresRegisters :
    ({ afterThreeBits with inbox := [.reset] } : State).inbox = .reset :: [] := by rfl

theorem witness_BindMakesStreamReadable :
    ({ afterThreeBits with inbox := [.bind [0xA5#8, 0#8], .reset] } : State).inbox
      = .bind [0xA5#8, 0#8] :: [.reset] ∧ [0xA5#8, 0#8].length < 2 ^ 32 := ⟨rfl, by decide⟩

theorem witness_TooLongStreamRefused : ∃ bytes : List Byte, 2 ^ 32 ≤ bytes.length
    ∧ ({ State.reset with inbox := [.bind bytes] } : State).inbox = .bind bytes :: [] :=
  ⟨List.replicate (2 ^ 32) 0#8, Nat.le_of_eq List.length_replicate.symm, rfl⟩

theorem witness_IdleKeepsState : afterThreeBits.inbox = [] := by rfl

theorem witness_StepRunsDecodedCommand :
    (presented afterOneBit 0x0400000000#40 [.reset]).inbox = .command 0x0400000000#40 :: [.reset]
      ∧ decode 0x0400000000#40 = .ok .readByte := ⟨rfl, rfl⟩

/-- IllegalWordOnlySetsIll: each of the six conditions. -/
theorem witness_IllegalWordOnlySetsIll :
    (presented afterOneBit 0x0A00000000#40 []).inbox = .command 0x0A00000000#40 :: []
      ∧ IllegalWord 0x0A00000000#40 false ∧ IllegalWord 0x1300000001#40 false
      ∧ IllegalWord 0x0200000040#40 false ∧ IllegalWord 0x0200000021#40 true
      ∧ IllegalWord 0x0300000000#40 false ∧ IllegalWord 0x0300000021#40 false
      ∧ IllegalWord 0x2100000000#40 false :=
  ⟨rfl, .inl (by decide), .inr (.inl (by decide)), .inr (.inr (.inl (by decide))),
    .inr (.inr (.inr (.inl (by decide)))), .inr (.inr (.inr (.inr (.inl (by decide))))),
    .inr (.inr (.inr (.inr (.inl (by decide))))), .inr (.inr (.inr (.inr (.inr (by decide)))))⟩

/-- IllOnlyForIllegalWords: an answer ILL, and one that depends on `esc`. -/
theorem witness_IllOnlyForIllegalWords :
    (∃ t d, step (presented afterOneBit 0x0300000021#40 []) = .next t ∧ t.resp = some ⟨.ill, d⟩)
      ∧ ∃ t d, step (presented afterOneBit 0x2100000000#40 []) = .next t ∧ t.resp = some ⟨.ill, d⟩ :=
  ⟨⟨_, _, rfl, rfl⟩, _, _, rfl, rfl⟩

theorem witness_EveryCommandIsAnswered :
    (presented afterOneBit 0xFF00000000#40 [.reset]).inbox = .command 0xFF00000000#40 :: [.reset] := by rfl

/-- ExhExactlyWhenOutOfData: each row of the table, one byte or one bit short. -/
theorem witness_ExhExactlyWhenOutOfData :
    OutOfData .readBit (bound []) ∧ OutOfData (.readBits 32#6) afterOneBit
      ∧ OutOfData (.readSbits 16#6) afterOneBit ∧ OutOfData .readByte (bound [])
      ∧ OutOfData .readS8 (bound []) ∧ OutOfData .readU16 afterOneBit ∧ OutOfData .readS16 afterOneBit
      ∧ OutOfData .readU32 (bound [1#8, 2#8, 3#8]) ∧ OutOfData .readS32 (bound [1#8, 2#8, 3#8])
      ∧ OutOfData (.skip 5#32) fourBytes ∧ (Instr.readBits 32#6).wf = true := by
  simp only [OutOfData]
  decide

/-- ExhExactlyWhenOutOfData, second clause, and RDATA is the free value. -/
theorem witness_ExhExactlyWhenOutOfData_exh :
    ∃ t d, exec .readByte (bound []) = .next t ∧ t.resp = some ⟨.exh, d⟩ := ⟨_, _, rfl, rfl⟩

/-- ExhaustionIsStable: nothing left, with `eos` set, for a read that fails, one that needs nothing, and a
SET_LIM that raises E. -/
theorem witness_ExhaustionIsStable : ({ fourBytes with pos := 2#32, lim := 2#32, eos := true } : State).avb = 0
    ∧ needsData (.readBits 1#6) = true ∧ needsData (.readBits 0#6) = false ∧ needsData (.skip 1#32) = true
    ∧ 2 < min (4#32).toNat fourBytes.len.toNat := by decide

/-- ReadBitRule: buffered at bitcnt 1, fetching, out of data, an argument. -/
theorem witness_ReadBitRule : ({ afterOneBit with bitcnt := 1#4 } : State).bitcnt ≠ 0#4
    ∧ ((bound [0xA5#8]).bitcnt = 0#4 ∧ (bound [0xA5#8]).pos.toNat < (bound [0xA5#8]).effEnd)
    ∧ (bound []).avb < 1
    ∧ (1#32 ≠ 0#32 ∧ (presented (bound []) 0x0100000001#40 []).inbox = .command (commandWord 1#8 1#32) :: []) := by
  decide

/-- ReadBitsRule: all 32 bits there are, none, one too many, a reserved bit, a count out of range. -/
theorem witness_ReadBitsRule : ((32#6).toNat ≤ 32 ∧ (32#6).toNat ≤ fourBytes.avb)
    ∧ ((0#6).toNat ≤ 32 ∧ (0#6).toNat ≤ (bound []).avb)
    ∧ ((16#6).toNat ≤ 32 ∧ afterOneBit.avb < (16#6).toNat)
    ∧ (0x40#32 : Word).extractLsb' 6 26 ≠ 0#26 ∧ 32 < ((0x21#32 : Word).extractLsb' 0 6).toNat := by decide

/-- ReadSbitsRule: n = 32, n = 1 out of data, and the three illegal arguments. -/
theorem witness_ReadSbitsRule : (1 ≤ (32#6).toNat ∧ (32#6).toNat ≤ 32 ∧ (32#6).toNat ≤ fourBytes.avb)
    ∧ (1 ≤ (1#6).toNat ∧ (1#6).toNat ≤ 32 ∧ (bound []).avb < (1#6).toNat)
    ∧ (0x80000001#32 : Word).extractLsb' 6 26 ≠ 0#26 ∧ ((0#32 : Word).extractLsb' 0 6).toNat = 0
    ∧ 32 < ((0x3F#32 : Word).extractLsb' 0 6).toNat := by decide

theorem witness_RawBitsAreAQueue : (15#6).toNat ≤ 32 ∧ (15#6).toNat ≤ afterOneBit.avb := by decide

/-- SplitFieldSameBits: exactly all the bits there are. -/
theorem witness_SplitFieldSameBits : (20#6).toNat + (12#6).toNat ≤ 32
    ∧ (20#6).toNat + (12#6).toNat ≤ fourBytes.avb := by decide

/-- RawBitReadsLowerAvb: both clauses, at AVB and one above. -/
theorem witness_RawBitReadsLowerAvb :
    (∃ k : BitVec 6, k.toNat = 15 ∧ 15 ≤ 32 ∧ (Instr.readSbits 15#6 = .readBits k ∨
      (Instr.readSbits 15#6 = .readSbits k ∧ 1 ≤ 15))) ∧ 15 ≤ afterOneBit.avb
    ∧ (∃ k : BitVec 6, k.toNat = 16 ∧ 16 ≤ 32 ∧ (Instr.readBits 16#6 = .readBits k ∨
      (Instr.readBits 16#6 = .readSbits k ∧ 1 ≤ 16))) ∧ afterOneBit.avb < 16 :=
  ⟨⟨15#6, by decide⟩, by decide, ⟨16#6, by decide⟩, by decide⟩

theorem witness_MixedWidthsAgree : fourBytes.bitcnt = 0#4 ∧ (bound [7#8]).bitcnt = 0#4 := by decide

/-- UnsignedByteReadRules and SignedByteReadRules: exactly k bytes readable, one too few, an argument. -/
theorem witness_ByteReadRules :
    (fourBytes.pos.toNat + 4 ≤ fourBytes.effEnd ∧ (bound [1#8, 2#8, 3#8]).pos.toNat + 4 > (bound [1#8, 2#8, 3#8]).effEnd)
    ∧ (afterOneBit.pos.toNat + 1 ≤ afterOneBit.effEnd ∧ afterOneBit.pos.toNat + 2 > afterOneBit.effEnd)
    ∧ ((bound []).pos.toNat + 1 > (bound []).effEnd)
    ∧ (1#32 ≠ 0#32 ∧ (presented (bound []) 0x0500000001#40 []).inbox = .command (commandWord 5#8 1#32) :: []) := by
  decide

theorem witness_ByteReadsNeverPartial :
    (Instr.readU16 = .readU16 ∨ Instr.readU16 = .readS16) ∧ (2 : Nat) = 2 := by decide

/-- AlignRule, GetPosRule, GetStatusRule, EscStartRule, EscByteinRule: an argument that is not 0. -/
theorem witness_AnswersIll : (0x80000000#32 : Word) ≠ 0#32
    ∧ (presented afterOneBit 0x1080000000#40 []).inbox = .command (commandWord 0x10#8 0x80000000#32) :: []
    ∧ (presented afterOneBit 0x1380000000#40 []).inbox = .command (commandWord 0x13#8 0x80000000#32) :: []
    ∧ (presented afterOneBit 0x1480000000#40 []).inbox = .command (commandWord 0x14#8 0x80000000#32) :: []
    ∧ (presented afterOneBit 0x2080000000#40 []).inbox = .command (commandWord 0x20#8 0x80000000#32) :: []
    ∧ (presented afterOneBit 0x2180000000#40 []).inbox = .command (commandWord 0x21#8 0x80000000#32) :: [] := by
  decide

/-- SkipRule: all bytes left, and one more. -/
theorem witness_SkipRule : afterThreeBits.pos.toNat + (4#32).toNat ≤ afterThreeBits.effEnd
    ∧ afterThreeBits.pos.toNat + (5#32).toNat > afterThreeBits.effEnd := by decide

/-- SegmentEndReached: a segment that ends at E, and one that ends at `pos`. -/
theorem witness_SegmentEndReached :
    (afterThreeBits.pos.toNat ≤ (5#32).toNat ∧ (5#32).toNat ≤ afterThreeBits.effEnd)
    ∧ (afterThreeBits.pos.toNat ≤ (1#32).toNat ∧ (1#32).toNat ≤ afterThreeBits.effEnd)
    ∧ (exec .align afterThreeBits matches .next _) := by decide

theorem witness_PosAdvancesWithinStream : (bound []).pos.toNat ≤ (bound []).len.toNat
    ∧ afterThreeBits.pos.toNat ≤ afterThreeBits.len.toNat := by decide

theorem witness_EscapeFlagRules : (isRawPath (.readBits 0#6) = true ∧ (Instr.readBits 0#6).wf = true)
    ∧ isControl .getPos = true ∧ afterOneBit.esc = false ∧ Instr.escBytein ≠ .escStart := by decide

/-- EscStartRule: two bytes readable, one, none. -/
theorem witness_EscStartRule : (bound [0x12#8, 0x34#8]).pos.toNat + 2 ≤ (bound [0x12#8, 0x34#8]).effEnd
    ∧ (bound [0x12#8]).pos.toNat + 1 = (bound [0x12#8]).effEnd ∧ (bound []).effEnd ≤ (bound []).pos.toNat := by
  decide

/-- EscByteinRule: the threshold on both sides, with a byte readable, also again after a fill byte, with none, and `esc` clear. -/
theorem witness_EscByteinRule :
    ((escAt 3#32 0xFF#8 0x90#8).esc = true ∧ (escAt 3#32 0xFF#8 0x90#8).b0 = 0xFF#8
      ∧ 0x8F#8 < (escAt 3#32 0xFF#8 0x90#8).b1)
    ∧ (¬ ((escAt 4#32 0xFF#8 0x8F#8).b0 = 0xFF#8 ∧ 0x8F#8 < (escAt 4#32 0xFF#8 0x8F#8).b1)
      ∧ (escAt 4#32 0xFF#8 0x8F#8).pos.toNat < (escAt 4#32 0xFF#8 0x8F#8).effEnd)
    ∧ (¬ (afterFill.b0 = 0xFF#8 ∧ 0x8F#8 < afterFill.b1)
      ∧ ({ afterFill with len := 2#32 } : State).pos.toNat < ({ afterFill with len := 2#32 } : State).effEnd)
    ∧ (¬ ((escAt 5#32 0x12#8 0xFF#8).b0 = 0xFF#8 ∧ 0x8F#8 < (escAt 5#32 0x12#8 0xFF#8).b1)
      ∧ (escAt 5#32 0x12#8 0xFF#8).effEnd ≤ (escAt 5#32 0x12#8 0xFF#8).pos.toNat)
    ∧ afterOneBit.esc = false := by decide

/-- MarkerIsStable: three ESC_BYTEINs at a marker, and commands that keep it. -/
theorem witness_MarkerIsStable : ∃ s : State, s.esc = true ∧ s.b0 = 0xFF#8 ∧ 0x8F#8 < s.b1
    ∧ s.inbox = List.replicate 3 (.command 0x2100000000#40) ++ [.reset]
    ∧ isRawPath (.setLim 0#32) = false ∧ (Instr.readSbits 0#6).wf = false :=
  ⟨{ escAt 5#32 0xFF#8 0xAC#8 with inbox := List.replicate 3 (.command 0x2100000000#40) ++ [.reset] }, by decide⟩

theorem witness_EndOfDataBecomesMarker : (escAt 5#32 0x12#8 0xFF#8).esc = true
    ∧ (escAt 5#32 0x12#8 0xFF#8).b1 = 0xFF#8
    ∧ (escAt 5#32 0x12#8 0xFF#8).effEnd ≤ (escAt 5#32 0x12#8 0xFF#8).pos.toNat := by decide

/-- EscapePathDeliversStream: all five bytes of `84 FF 80 FF AC`, three ESC_BYTEINs, the stuffed 80 among
them. -/
theorem witness_EscapePathDeliversStream : ∃ s : State,
    s.inbox = .command 0x2000000000#40 :: (List.replicate 3 (.command 0x2100000000#40) ++ [])
    ∧ s.pos.toNat + 3 + 2 ≤ s.effEnd
    ∧ (∀ j, j < 3 → s.byteAt (s.pos.toNat + j) = 0xFF#8 → s.byteAt (s.pos.toNat + j + 1) ≤ 0x8F#8) :=
  ⟨{ bound [0x84#8, 0xFF#8, 0x80#8, 0xFF#8, 0xAC#8] with
      inbox := .command 0x2000000000#40 :: (List.replicate 3 (.command 0x2100000000#40) ++ []) },
    by decide, by decide, by decide⟩

/-- RawPathNeverDestuffs: a read of bits and one of bytes that take all there are, a SKIP, and two bytes. -/
theorem witness_RawPathNeverDestuffs :
    (isRawPath (.readSbits 32#6) = true ∧ (Instr.readSbits 32#6).wf = true ∧ ¬ OutOfData (.readSbits 32#6) fourBytes)
    ∧ ¬ OutOfData .readU32 fourBytes ∧ ¬ OutOfData (.skip 4#32) fourBytes
    ∧ (∀ n, Instr.readU32 ≠ .skip n) ∧ (bound [0xFF#8, 0x7F#8]).pos.toNat + 2 ≤ (bound [0xFF#8, 0x7F#8]).effEnd := by
  simp only [OutOfData]
  exact ⟨by decide, by decide, by decide, by simp, by decide⟩

theorem witness_OnlySetLimWritesLim : ∀ a, Instr.readByte ≠ .setLim a := by simp

theorem witness_BytesTakenPerCommand : ∃ t r, exec .readU32 fourBytes = .next t ∧ t.resp = some r
    ∧ r.code = .ok := ⟨_, _, rfl, rfl, rfl⟩

theorem witness_FirstReadAfterReset : ({ bound [0x80#8] with inbox := [.reset] } : State).inbox = .reset :: []
    ∧ 0 < (bound [0x80#8]).len.toNat := by decide

/-- Raw bits pending: the invariant is met with `bitcnt` 5, before a READ_BITS that fetches. -/
def pendingState : State := presented afterThreeBits 0x0200000007#40 []

/-- StepKeepsInvariant: raw bits pending, and a step from there. -/
theorem witness_StepKeepsInvariant : pendingState.Inv ∧ ∃ t, step pendingState = .next t where
  left :=
    { pos_le_len := by decide
      bitcnt_le_seven := by decide
      bitbuf_last_byte := fun _ => by decide
      esc_aligned := fun h => absurd h (by decide)
      lookahead := fun h => absurd h (by decide)
      lookahead_or_fill := fun h => absurd h (by decide)
      exh_sticky := fun d h => by cases h
      mem_wf := by decide }
  right := ⟨_, rfl⟩

/-- StepKeepsInvariant: the escape path active on stream bytes. -/
theorem witness_StepKeepsInvariant_escape : (escAt 4#32 0x80#8 0xFF#8).Inv where
  pos_le_len := by decide
  bitcnt_le_seven := by decide
  bitbuf_last_byte := fun h => absurd rfl h
  esc_aligned := fun _ => by decide
  lookahead := fun _ _ => by decide
  lookahead_or_fill := fun _ => by decide
  exh_sticky := fun d h => by cases h
  mem_wf := by decide

/-- BytesBeyondENeverSeen: two streams of three bytes that differ in the byte at E = 2. -/
theorem witness_BytesBeyondENeverSeen :
    AgreeBelowE { bound [1#8, 2#8, 3#8] with lim := 2#32 } (bound [1#8, 2#8, 9#8]).mem := by
  intro a h
  have h2 : a < 2 := h
  obtain rfl | rfl : a = 0 ∨ a = 1 := by omega
  · decide
  · decide

theorem witness_OnlyEscapeCommandsWriteLookahead : Instr.align ≠ .escStart ∧ Instr.align ≠ .escBytein := by
  decide

/-- RaisedLimitAfterFill: `lim` cut the stream `12 34` after one byte, ESC_START took a fill byte; `lim` is then
raised, left, and raised with `b0 = 0xFF`. -/
theorem witness_RaisedLimitAfterFill : ∃ s : State, s.esc = true ∧ s.b1 = 0xFF#8
    ∧ s.b0 ≠ 0xFF#8 ∧ s.pos.toNat < min (2#32).toNat s.len.toNat ∧ min (1#32).toNat s.len.toNat ≤ s.pos.toNat
    ∧ ({ s with b0 := 0xFF#8 } : State).b0 = 0xFF#8 :=
  ⟨{ bound [0x12#8, 0x34#8] with
      lim := 1#32, pos := 1#32, b0 := 0x12#8, b1 := 0xFF#8, esc := true, fill := true },
    by decide⟩

/-- StepKeepsInvariant: a fill byte in `b1`. -/
theorem witness_StepKeepsInvariant_fill : afterFill.Inv where
  pos_le_len := by decide
  bitcnt_le_seven := by decide
  bitbuf_last_byte := fun h => absurd rfl h
  esc_aligned := fun _ => by decide
  lookahead := fun _ h => absurd h (by decide)
  lookahead_or_fill := fun _ => by decide
  exh_sticky := fun d h => by cases h
  mem_wf := by decide

/-- DeadContentsNeverSeen: `bitbuf`, `b0` and `b1` differ, with `bitcnt = 0` and `esc = 0`. -/
theorem witness_DeadContentsNeverSeen :
    SameLive fourBytes { fourBytes with bitbuf := 0xA5#8, b0 := 0xFF#8, b1 := 0xFF#8 } :=
  ⟨rfl, fun h => absurd rfl h, fun h => absurd h (by decide)⟩

end Sys2Proof.Tests
end

/-! PROOFS. Family 00_scope: what one step does for each input, and that it always goes on. -/

namespace Sys2Proof.Machine

/-! What acting on one input does, and what a step does for each form of the port beside a presented word
(`step_command`). -/

theorem runWord_ok {w : CmdWord} {i : Instr} (h : decode w = .ok i) (s : State) :
    runWord w s = exec i s := by
  rw [runWord, h]

theorem runWord_error {w : CmdWord} {r : Reject} (h : decode w = .error r) (s : State) :
    runWord w s = .next s.rejected := by
  rw [runWord, h, State.illegal_eq]

/-- A word is answered whatever it is: by its command's effect, or as an illegal one (60_exceptions R160). -/
theorem runWord_next (w : CmdWord) (s : State) : ∃ t, runWord w s = .next t := by
  cases h : decode w with
  | ok i => exact ⟨effect i s, (runWord_ok h s).trans (exec_effect i s)⟩
  | error r => exact ⟨s.rejected, runWord_error h s⟩

theorem runBind_of_lt {bytes : List Byte} (h : bytes.length < 2 ^ 32) (s : State) :
    runBind bytes s = .next (s.bindStream bytes).resetRegs := if_pos h

theorem runBind_of_le {bytes : List Byte} (h : 2 ^ 32 ≤ bytes.length) (s : State) :
    runBind bytes s = .refused .streamTooLong := if_neg (Nat.not_lt.mpr h)

theorem step_idle {s : State} (h : s.inbox = []) : step s = .next s := by
  rw [step, h]

theorem step_reset {s : State} {rest : List Input} (h : s.inbox = .reset :: rest) :
    step s = .next ({ s with inbox := rest } : State).resetRegs := by
  rw [step, h]

theorem step_bind {s : State} {bytes : List Byte} {rest : List Input} (h : s.inbox = .bind bytes :: rest) :
    step s = runBind bytes { s with inbox := rest } := by
  rw [step, h]

/-- Settles O10: the binding's length check fails. -/
theorem tooLongStreamRefused : Obligations.TooLongStreamRefused := by
  intro s bytes rest hbox hlen
  rw [step_bind hbox, runBind_of_le hlen]

/-- Settles O12: the word is taken from the port, then run as the command it decodes to. -/
theorem stepRunsDecodedCommand : Obligations.StepRunsDecodedCommand := by
  intro s w rest i hbox hdec
  rw [step_command hbox, runWord_ok hdec]

/-- Settles O50, by what the port presents. A word always goes on because no meaning evaluates a read outside
the stream (`exec_effect`). -/
theorem stepAlwaysGoesOn : Obligations.StepAlwaysGoesOn := by
  intro s
  match hbox : s.inbox with
  | [] => exact .inl ⟨_, step_idle hbox⟩
  | .command w :: rest =>
    obtain ⟨t, ht⟩ := runWord_next w { s with inbox := rest }
    exact .inl ⟨t, (step_command hbox).trans ht⟩
  | .reset :: rest => exact .inl ⟨_, step_reset hbox⟩
  | .bind bytes :: rest =>
    obtain hlt | hle := Nat.lt_or_ge bytes.length (2 ^ 32)
    · exact .inl ⟨_, (step_bind hbox).trans (runBind_of_lt hlt _)⟩
    · exact .inr ⟨bytes, rest, rfl, hle, tooLongStreamRefused s bytes rest hbox hle⟩

end Sys2Proof.Machine

/-! PROOFS. Family 10_state: what the registers hold, what each command can leave in them, and the invariant of
the machine. -/

namespace Sys2Proof.Machine

/-! ### What a command can leave

`Leaves i s t` lists the states a command can leave, each with the condition under which it does. A claim about
all commands that speaks of one run is one case split over it. -/

/-- Command `i` leaves `t` from `s`: one constructor for each way a command can end. -/
inductive Leaves (i : Instr) (s : State) : State → Prop
  /-- A raw-path command that lacks its data (40_raw_bit_reads R84). -/
  | exhausted (hraw : isRawPath i = true) : Leaves i s s.exhausted
  /-- A term that is no command, or ESC_BYTEIN off the escape path (60_exceptions R162). -/
  | rejected (hstart : i ≠ .escStart) (hesc : i = .escBytein → s.esc = false) : Leaves i s s.rejected
  /-- A raw read of `n` bits. -/
  | bits (hraw : isRawPath i = true) {n : Nat} (v : Word) (hn : n ≤ s.avb) :
      Leaves i s ((s.afterBits n).answered v)
  /-- A raw read of `k` bytes, or a SKIP of them. -/
  | bytes (hraw : isRawPath i = true) {k : Nat} (v : Word) (hk : s.pos.toNat + k ≤ s.effEnd) :
      Leaves i s ((s.afterBytes k).answered v)
  /-- ALIGN. -/
  | aligned (hraw : isRawPath i = true) : Leaves i s (s.byteEntry.answered 0#32)
  /-- SET_LIM. -/
  | limited (a : Word) (hi : i = .setLim a) : Leaves i s (({ s with lim := a } : State).answered 0#32)
  /-- GET_POS, GET_STATUS, and ESC_BYTEIN at a marker: nothing but the response. -/
  | observed (v : Word) (hstart : i ≠ .escStart) (hmark : i = .escBytein → s.atMarker = true) :
      Leaves i s (s.answered v)
  /-- ESC_START with both of its bytes readable (43_escape_path R142). -/
  | startedBoth (hi : i = .escStart) (v : Word) (hp : s.pos.toNat + 2 ≤ s.effEnd) :
      Leaves i s (({ s with
        bitcnt := 0#4, b0 := s.byteAt s.pos.toNat, b1 := s.byteAt (s.pos.toNat + 1)
        pos := s.pos + 2#32, esc := true } : State).answered v)
  /-- ESC_START with one byte readable. -/
  | startedLast (hi : i = .escStart) (v : Word) (hp : s.pos.toNat + 1 = s.effEnd) :
      Leaves i s (({ s with
        bitcnt := 0#4, b0 := s.byteAt s.pos.toNat, b1 := 0xFF#8
        pos := s.pos + 1#32, fill := true, esc := true } : State).answered v)
  /-- ESC_START with none readable. -/
  | startedEmpty (hi : i = .escStart) (v : Word) (hp : s.effEnd ≤ s.pos.toNat) :
      Leaves i s (({ s with
        bitcnt := 0#4, b0 := 0xFF#8, b1 := 0xFF#8, fill := true, esc := true } : State).answered v)
  /-- ESC_BYTEIN off a marker with a byte readable (43_escape_path R143). -/
  | fetched (hi : i = .escBytein) (he : s.esc = true) (hm : ¬ s.atMarker = true) (v : Word)
      (hp : s.pos.toNat < s.effEnd) :
      Leaves i s (({ s with
        b0 := s.b1, b1 := s.byteAt s.pos.toNat, pos := s.pos + 1#32 } : State).answered v)
  /-- ESC_BYTEIN off a marker with none readable. -/
  | filled (hi : i = .escBytein) (he : s.esc = true) (hm : ¬ s.atMarker = true) (v : Word)
      (hp : s.effEnd ≤ s.pos.toNat) :
      Leaves i s (({ s with b0 := s.b1, b1 := 0xFF#8, fill := true } : State).answered v)

theorem fieldEffect_leaves {i : Instr} (hraw : isRawPath i = true) (n : Nat) (ext : Nat → Word) (s : State) :
    Leaves i s (fieldEffect n ext s) := by
  unfold fieldEffect
  split
  · exact .exhausted hraw
  · exact .bits hraw _ (by omega)

theorem bytesEffect_leaves {i : Instr} (hraw : isRawPath i = true) (k : Nat) (ext : Nat → Word) (s : State) :
    Leaves i s (bytesEffect k ext s) := by
  unfold bytesEffect
  split
  · exact .exhausted hraw
  · exact .bytes hraw _ (by omega)

theorem escStartEffect_leaves (s : State) : Leaves .escStart s (escStartEffect s) := by
  unfold escStartEffect
  split
  · exact .startedBoth rfl _ (by assumption)
  · split
    · exact .startedLast rfl _ (by assumption)
    · exact .startedEmpty rfl _ (by omega)

theorem escByteinEffect_leaves (s : State) : Leaves .escBytein s (escByteinEffect s) := by
  by_cases he : s.esc = true
  · by_cases hm : s.atMarker = true
    · rw [escByteinEffect, if_pos he, if_pos hm]
      exact .observed _ nofun fun _ => hm
    · rw [escByteinEffect, if_pos he, if_neg hm]
      split
      · exact .fetched rfl he hm _ (by assumption)
      · exact .filled rfl he hm _ (by omega)
  · rw [escByteinEffect, if_neg he]
    exact .rejected nofun fun _ => by simpa using he

/-- What every command leaves, by the command. -/
theorem effect_leaves (i : Instr) (s : State) : Leaves i s (effect i s) := by
  cases i with
  | readBit => exact fieldEffect_leaves rfl 1 zext32 s
  | readBits n =>
    rw [effect]
    split
    · exact fieldEffect_leaves rfl _ _ s
    · exact .rejected nofun nofun
  | readSbits n =>
    rw [effect]
    split
    · exact fieldEffect_leaves rfl _ _ s
    · exact .rejected nofun nofun
  | readByte => exact bytesEffect_leaves rfl 1 zext32 s
  | readU16 => exact bytesEffect_leaves rfl 2 zext32 s
  | readU32 => exact bytesEffect_leaves rfl 4 zext32 s
  | readS8 => exact bytesEffect_leaves rfl 1 (sext 8) s
  | readS16 => exact bytesEffect_leaves rfl 2 (sext 16) s
  | readS32 => exact bytesEffect_leaves rfl 4 (sext 32) s
  | align => exact .aligned rfl
  | skip n =>
    rw [effect]
    split
    · exact .exhausted rfl
    · exact .bytes rfl _ (by omega)
  | setLim a => exact .limited a rfl
  | getPos => exact .observed _ nofun nofun
  | getStatus => exact .observed _ nofun nofun
  | escStart => exact escStartEffect_leaves s
  | escBytein => exact escByteinEffect_leaves s

/-- A command completes in a state that it can leave. -/
theorem exec_leaves (i : Instr) (s : State) : ∃ t, exec i s = .next t ∧ Leaves i s t :=
  ⟨effect i s, exec_effect i s, effect_leaves i s⟩

theorem pos_add_two {s : State} (h : s.pos.toNat + 2 ≤ s.effEnd) :
    (s.pos + 2#32).toNat = s.pos.toNat + 2 := by
  have := s.effEnd_lt
  rw [BitVec.toNat_add]
  exact Nat.mod_eq_of_lt (by simp; omega)

/-! ### The invariant -/

/-- Off the escape path with no raw bits pending, the invariant speaks of `pos`, the last response and the memory
only. -/
theorem State.Inv.of_aligned {s : State} (hpos : s.pos.toNat ≤ s.len.toNat) (hbits : s.bitcnt = 0#4)
    (hesc : s.esc = false) (hexh : ∀ d, s.resp = some ⟨.exh, d⟩ → s.eos = true)
    (hmem : s.mem.wf s.len.toNat = true) : s.Inv where
  pos_le_len := hpos
  bitcnt_le_seven := by simp [hbits]
  bitbuf_last_byte h := absurd hbits h
  esc_aligned _ := hbits
  lookahead h := by simp [hesc] at h
  lookahead_or_fill h := by simp [hesc] at h
  exh_sticky := hexh
  mem_wf := hmem

/-- Presenting something else keeps the invariant. -/
theorem State.Inv.with_inbox {s : State} (h : s.Inv) (rest : List Input) :
    ({ s with inbox := rest } : State).Inv := { h with }

theorem State.Inv.with_lim {s : State} (h : s.Inv) (a : Word) : ({ s with lim := a } : State).Inv := { h with }

theorem State.Inv.answered {s : State} (h : s.Inv) (v : Word) : (s.answered v).Inv :=
  { h with exh_sticky := nofun }

theorem State.Inv.rejected {s : State} (h : s.Inv) : s.rejected.Inv :=
  { h with exh_sticky := nofun }

theorem State.Inv.exhausted {s : State} (h : s.Inv) : s.exhausted.Inv := by
  have hp := h.pos_le_len
  have hE := s.effEnd_le_len
  exact .of_aligned (by rw [exhausted_pos_toNat, State.exhausted_len]; omega) rfl rfl (fun _ _ => rfl) h.mem_wf

theorem State.Inv.byteEntry {s : State} (h : s.Inv) : s.byteEntry.Inv :=
  .of_aligned h.pos_le_len rfl rfl h.exh_sticky h.mem_wf

theorem State.Inv.afterBytes {s : State} (h : s.Inv) {k : Nat} (hk : s.pos.toNat + k ≤ s.effEnd) :
    (s.afterBytes k).Inv := by
  have hE := s.effEnd_le_len
  exact .of_aligned (by rw [afterBytes_pos_toNat hk, State.afterBytes_len]; omega) rfl rfl h.exh_sticky h.mem_wf

/-- No byte is fetched while the bits in `bitbuf` suffice. -/
theorem bytesFor_eq_zero {s : State} {n : Nat} (h : n ≤ s.bitcnt.toNat) : s.bytesFor n = 0 := by
  simp only [State.bytesFor]; omega

theorem bytesFor_pos {s : State} {n : Nat} (h : s.bitcnt.toNat < n) : 0 < s.bytesFor n := by
  simp only [State.bytesFor]; omega

/-- At most 7 bits of the byte fetched last are left. -/
theorem afterBits_bitcnt_le {s : State} (h : s.bitcnt.toNat ≤ 7) (n : Nat) :
    (s.afterBits n).bitcnt.toNat ≤ 7 := by
  rw [afterBits_bitcnt_toNat]
  simp only [State.bytesFor]
  split <;> omega

/-- A bit read leaves in `bitbuf` the byte before `pos`: the old one while its bits suffice, else the last byte
fetched. -/
theorem State.Inv.afterBits_bitbuf {s : State} (h : s.Inv) {n : Nat} (hn : n ≤ s.avb)
    (hc : (s.afterBits n).bitcnt ≠ 0#4) : 0 < (s.afterBits n).pos.toNat ∧
      (s.afterBits n).bitbuf = (s.afterBits n).byteAt ((s.afterBits n).pos.toNat - 1) := by
  rw [afterBits_pos_toNat hn, State.afterBits_bitbuf, State.afterBits_byteAt]
  by_cases hb : n ≤ s.bitcnt.toNat
  · have hs : s.bitcnt ≠ 0#4 := fun h0 => hc (by simp_all)
    rw [if_pos hb, bytesFor_eq_zero hb]
    exact h.bitbuf_last_byte hs
  · have := bytesFor_pos (Nat.lt_of_not_le hb)
    exact ⟨by omega, if_neg hb⟩

theorem State.Inv.afterBits {s : State} (h : s.Inv) {n : Nat} (hn : n ≤ s.avb) : (s.afterBits n).Inv where
  pos_le_len := by
    have hp := h.pos_le_len
    have hE := s.effEnd_le_len
    have hb := bytesFor_le hn
    rw [afterBits_pos_toNat hn, State.afterBits_len]
    omega
  bitcnt_le_seven := afterBits_bitcnt_le h.bitcnt_le_seven n
  bitbuf_last_byte := h.afterBits_bitbuf hn
  esc_aligned := nofun
  lookahead := nofun
  lookahead_or_fill := nofun
  exh_sticky := h.exh_sticky
  mem_wf := h.mem_wf

/-- On the escape path with no raw bits pending and an answer OK, the invariant is `pos <= LEN`, its two clauses
about the lookahead, and the memory. -/
theorem State.Inv.of_escape {s : State} {v : Word} (hbits : s.bitcnt = 0#4)
    (hpos : s.pos.toNat ≤ s.len.toNat) (hmem : s.mem.wf s.len.toNat = true)
    (hlook : s.fill = false →
      2 ≤ s.pos.toNat ∧ s.b0 = s.byteAt (s.pos.toNat - 2) ∧ s.b1 = s.byteAt (s.pos.toNat - 1))
    (hlast : (s.b1 = 0xFF#8 ∧ s.fill = true) ∨ (1 ≤ s.pos.toNat ∧ s.b1 = s.byteAt (s.pos.toNat - 1))) :
    (s.answered v).Inv where
  pos_le_len := hpos
  bitcnt_le_seven := by simp [hbits]
  bitbuf_last_byte h := absurd hbits h
  esc_aligned _ := hbits
  lookahead _ := hlook
  lookahead_or_fill _ := hlast
  exh_sticky := nofun
  mem_wf := hmem

/-- The invariant is kept by every command. -/
theorem Leaves.inv {i : Instr} {s t : State} (hl : Leaves i s t) (h : s.Inv) : t.Inv := by
  have hE := s.effEnd_le_len
  cases hl with
  | exhausted => exact h.exhausted
  | rejected => exact h.rejected
  | bits _ v hn => exact (h.afterBits hn).answered v
  | bytes _ v hk => exact (h.afterBytes hk).answered v
  | aligned => exact h.byteEntry.answered _
  | limited a => exact (h.with_lim a).answered _
  | observed v => exact h.answered v
  | startedBoth _ v hp =>
    have hp2 := pos_add_two hp
    refine .of_escape rfl (by simp only [hp2]; omega) h.mem_wf (fun _ => ?_) (.inr ?_)
    · simp only [hp2]
      exact ⟨by omega, rfl, rfl⟩
    · simp only [hp2]
      exact ⟨by omega, rfl⟩
  | startedLast _ v hp =>
    exact .of_escape rfl (by simp only [pos_succ (s := s) (by omega)]; omega) h.mem_wf nofun (.inl ⟨rfl, rfl⟩)
  | startedEmpty _ v hp => exact .of_escape rfl h.pos_le_len h.mem_wf nofun (.inl ⟨rfl, rfl⟩)
  | fetched _ he _ v hp =>
    have hp1 := pos_succ hp
    refine .of_escape (h.esc_aligned he) (by simp only [hp1]; omega) h.mem_wf (fun hf => ?_) (.inr ?_)
    · obtain ⟨h2, -, hb1⟩ := h.lookahead he hf
      simp only [hp1]
      exact ⟨by omega, hb1, rfl⟩
    · simp only [hp1]
      exact ⟨by omega, rfl⟩
  | filled _ he _ v => exact .of_escape (h.esc_aligned he) h.pos_le_len h.mem_wf nofun (.inl ⟨rfl, rfl⟩)

theorem runWord_keeps_inv {w : CmdWord} {s t : State} (h : s.Inv) (hr : runWord w s = .next t) : t.Inv := by
  cases hd : decode w with
  | ok i =>
    rw [runWord_ok hd] at hr
    exact exec_next hr ▸ (effect_leaves i s).inv h
  | error r =>
    rw [runWord_error hd] at hr
    injection hr with hr
    exact hr ▸ h.rejected

/-- Reset gives the invariant over any canonical memory. -/
theorem resetRegs_inv {s : State} (h : s.mem.wf s.len.toNat = true) : s.resetRegs.Inv :=
  .of_aligned (Nat.zero_le _) rfl rfl nofun h

/-- Binding gives the invariant, whatever was bound before. -/
theorem runBind_keeps_inv {bytes : List Byte} {s t : State} (hr : runBind bytes s = .next t) : t.Inv := by
  obtain hlt | hle := Nat.lt_or_ge bytes.length (2 ^ 32)
  · rw [runBind_of_lt hlt] at hr
    injection hr with hr
    have hlen : (BitVec.ofNat 32 bytes.length).toNat = bytes.length := Nat.mod_eq_of_lt hlt
    subst hr
    refine resetRegs_inv ?_
    rw [State.bindStream_mem, State.bindStream_len, hlen]
    exact Memory.ofBytes_wf bytes
  · rw [runBind_of_le hle] at hr
    cases hr

/-- Settles O49, by what the port presents. -/
theorem stepKeepsInvariant : Obligations.StepKeepsInvariant := by
  intro s t h hs
  match hbox : s.inbox with
  | [] =>
    rw [step_idle hbox] at hs
    injection hs with hs
    exact hs ▸ h
  | .command w :: rest =>
    rw [step_command hbox] at hs
    exact runWord_keeps_inv (h.with_inbox rest) hs
  | .reset :: rest =>
    rw [step_reset hbox] at hs
    injection hs with hs
    exact hs ▸ resetRegs_inv (h.with_inbox rest).mem_wf
  | .bind bytes :: rest =>
    rw [step_bind hbox] at hs
    exact runBind_keeps_inv hs

/-- Settles O48: nothing is bound and nothing has been read. -/
theorem invariantAtReset : Obligations.InvariantAtReset :=
  .of_aligned (Nat.zero_le _) rfl rfl nofun rfl

/-! ### Contents that are not in use

A state and its partner with other dead contents do the same branch of every command; what is to be shown of
each effect is that it moves the exchanged contents along. -/

/-- `s` with other contents of `bitbuf`, `b0` and `b1`. -/
def State.withDead (s : State) (buf x y : Byte) : State := { s with bitbuf := buf, b0 := x, b1 := y }

@[simp] theorem State.withDead_pos (s : State) (buf x y : Byte) : (s.withDead buf x y).pos = s.pos := rfl
@[simp] theorem State.withDead_esc (s : State) (buf x y : Byte) : (s.withDead buf x y).esc = s.esc := rfl
@[simp] theorem State.withDead_mem (s : State) (buf x y : Byte) : (s.withDead buf x y).mem = s.mem := rfl
@[simp] theorem State.withDead_effEnd (s : State) (buf x y : Byte) : (s.withDead buf x y).effEnd = s.effEnd := rfl
@[simp] theorem State.withDead_avb (s : State) (buf x y : Byte) : (s.withDead buf x y).avb = s.avb := rfl
@[simp] theorem State.withDead_byteAt (s : State) (buf x y : Byte) (a : Nat) :
    (s.withDead buf x y).byteAt a = s.byteAt a := rfl

/-- Two states answer alike and differ at most in contents that are not in use. -/
def AnswerAlike (t v : State) : Prop := SameLive t v ∧ t.resp = v.resp

theorem answerAlike_withDead {t : State} {buf x y : Byte} (hbuf : t.bitcnt ≠ 0#4 → buf = t.bitbuf)
    (hlook : t.esc = true → x = t.b0 ∧ y = t.b1) : AnswerAlike t (t.withDead buf x y) :=
  ⟨⟨rfl, hbuf, hlook⟩, rfl⟩

section
variable {s : State} {buf x y : Byte} (hbuf : s.bitcnt ≠ 0#4 → buf = s.bitbuf)
  (hlook : s.esc = true → x = s.b0 ∧ y = s.b1)

include hbuf in
theorem withDead_rawBits : (s.withDead buf x y).rawBits = s.rawBits := by
  show byteBits buf s.bitcnt.toNat ++ _ = byteBits s.bitbuf s.bitcnt.toNat ++ _
  by_cases hc : s.bitcnt = 0#4
  · rw [hc]; rfl
  · rw [hbuf hc]; rfl

theorem exhausted_alike : AnswerAlike s.exhausted (s.withDead buf x y).exhausted :=
  answerAlike_withDead (t := s.exhausted) (fun h => absurd rfl h) nofun

include hbuf hlook in
theorem answered_alike (v : Word) : AnswerAlike (s.answered v) ((s.withDead buf x y).answered v) :=
  answerAlike_withDead (t := s.answered v) hbuf hlook

include hbuf hlook in
theorem rejected_alike : AnswerAlike s.rejected (s.withDead buf x y).rejected :=
  answerAlike_withDead (t := s.rejected) hbuf hlook

theorem afterBytes_alike (k : Nat) (v : Word) :
    AnswerAlike ((s.afterBytes k).answered v) (((s.withDead buf x y).afterBytes k).answered v) :=
  answerAlike_withDead (t := (s.afterBytes k).answered v) (fun h => absurd rfl h) nofun

include hbuf in
/-- Bits of `bitbuf` are left only where some were left before or a byte was fetched. -/
theorem afterBits_alike (n : Nat) (v : Word) :
    AnswerAlike ((s.afterBits n).answered v) (((s.withDead buf x y).afterBits n).answered v) := by
  refine answerAlike_withDead (t := (s.afterBits n).answered v)
    (buf := ((s.withDead buf x y).afterBits n).bitbuf) (fun h => ?_) nofun
  show (if n ≤ s.bitcnt.toNat then buf else _) = if n ≤ s.bitcnt.toNat then s.bitbuf else _
  by_cases hn : n ≤ s.bitcnt.toNat
  · have hs : s.bitcnt ≠ 0#4 := fun h0 => h (by simp_all)
    rw [hbuf hs]; rfl
  · rw [if_neg hn, if_neg hn]; rfl

include hbuf in
theorem fieldEffect_alike (n : Nat) (ext : Nat → Word) :
    AnswerAlike (fieldEffect n ext s) (fieldEffect n ext (s.withDead buf x y)) := by
  rw [fieldEffect, fieldEffect, State.withDead_avb, withDead_rawBits hbuf]
  split
  · exact exhausted_alike
  · exact afterBits_alike hbuf n _

theorem bytesEffect_alike (k : Nat) (ext : Nat → Word) :
    AnswerAlike (bytesEffect k ext s) (bytesEffect k ext (s.withDead buf x y)) := by
  rw [bytesEffect, bytesEffect, bytesToNat_congr (State.withDead_mem s buf x y), State.withDead_pos,
    State.withDead_effEnd]
  split
  · exact exhausted_alike
  · exact afterBytes_alike k _

/-- ESC_START overwrites `b0` and `b1` and drops the raw bits. -/
theorem escStartEffect_alike : AnswerAlike (escStartEffect s) (escStartEffect (s.withDead buf x y)) := by
  rw [escStartEffect, escStartEffect, State.withDead_effEnd, State.withDead_pos, State.withDead_byteAt,
    State.withDead_byteAt]
  split
  · exact answerAlike_withDead (fun h => absurd rfl h) fun _ => ⟨rfl, rfl⟩
  · split <;> exact answerAlike_withDead (fun h => absurd rfl h) fun _ => ⟨rfl, rfl⟩

include hbuf hlook in
/-- ESC_BYTEIN looks at `b0` and `b1` only on the escape path, where they are in use. -/
theorem escByteinEffect_alike :
    AnswerAlike (escByteinEffect s) (escByteinEffect (s.withDead buf x y)) := by
  rw [escByteinEffect, escByteinEffect, State.withDead_esc]
  by_cases he : s.esc = true
  · obtain ⟨rfl, rfl⟩ := hlook he
    have hm : (s.withDead buf s.b0 s.b1).atMarker = s.atMarker := rfl
    rw [if_pos he, if_pos he, hm, State.withDead_effEnd, State.withDead_pos]
    split
    · exact answered_alike hbuf hlook _
    · split <;> exact answerAlike_withDead hbuf fun _ => ⟨rfl, rfl⟩
  · rw [if_neg he, if_neg he]
    exact rejected_alike hbuf hlook

include hbuf hlook in
theorem effect_alike (i : Instr) : AnswerAlike (effect i s) (effect i (s.withDead buf x y)) := by
  cases i with
  | readBit => exact fieldEffect_alike hbuf 1 zext32
  | readBits n =>
    rw [effect, effect]
    split
    · exact fieldEffect_alike hbuf _ _
    · exact rejected_alike hbuf hlook
  | readSbits n =>
    rw [effect, effect]
    split
    · exact fieldEffect_alike hbuf _ _
    · exact rejected_alike hbuf hlook
  | readByte => exact bytesEffect_alike 1 zext32
  | readU16 => exact bytesEffect_alike 2 zext32
  | readU32 => exact bytesEffect_alike 4 zext32
  | readS8 => exact bytesEffect_alike 1 (sext 8)
  | readS16 => exact bytesEffect_alike 2 (sext 16)
  | readS32 => exact bytesEffect_alike 4 (sext 32)
  | align => exact answerAlike_withDead (t := s.byteEntry.answered 0#32) (fun h => absurd rfl h) nofun
  | skip n =>
    rw [effect, effect, State.withDead_effEnd, State.withDead_pos]
    split
    · exact exhausted_alike
    · exact afterBytes_alike _ _
  | setLim a => exact answerAlike_withDead (t := ({ s with lim := a } : State).answered 0#32) hbuf hlook
  | getPos => exact answered_alike hbuf hlook s.pos
  | getStatus => exact answered_alike hbuf hlook s.status
  | escStart => exact escStartEffect_alike
  | escBytein => exact escByteinEffect_alike hbuf hlook

end

/-- Settles O52, by the command: none looks at contents that are not in use. -/
theorem deadContentsNeverSeen : Obligations.DeadContentsNeverSeen := by
  intro i s u ⟨hu, hbuf, hlook⟩
  obtain ⟨hlive, hresp⟩ := effect_alike hbuf hlook i
  have hu' : s.withDead u.bitbuf u.b0 u.b1 = u := hu.symm
  rw [hu'] at hlive hresp
  exact ⟨effect i s, effect i u, exec_effect i s, exec_effect i u, hlive, hresp⟩

/-! ### Bytes at or beyond E -/

theorem streamBits_congr {s t : State} {n : Nat} : ∀ {a : Nat},
    (∀ k, a ≤ k → k < a + n → t.byteAt k = s.byteAt k) → t.streamBits a n = s.streamBits a n := by
  induction n with
  | zero => intro a _; rfl
  | succ n ih =>
    intro a h
    rw [streamBits_succ, streamBits_succ, h a (by omega) (by omega),
      ih fun k ha hk => h k (by omega) (by omega)]

/-- A number of bytes depends on those bytes only. -/
theorem bytesToNat_congr_range {s t : State} {k : Nat} : ∀ {a v : Nat},
    (∀ j, a ≤ j → j < a + k → t.byteAt j = s.byteAt j) → bytesToNat t a k v = bytesToNat s a k v := by
  induction k with
  | zero => intro a v _; rfl
  | succ k ih =>
    intro a v h
    rw [bytesToNat, bytesToNat, h a (by omega) (by omega)]
    exact ih fun j hj hk => h j (by omega) (by omega)

section
variable {s : State} {m : Memory} (h : AgreeBelowE s m)
include h

theorem withMem_byteAt {a : Nat} (ha : a < s.effEnd) : (s.withMem m).byteAt a = s.byteAt a := h a ha

theorem withMem_rawBits : (s.withMem m).rawBits = s.rawBits := by
  have hs := streamBits_congr (s := s) (t := s.withMem m) (a := s.pos.toNat)
    (n := s.effEnd - s.pos.toNat) fun k _ hk => withMem_byteAt h (by omega)
  exact congrArg (byteBits s.bitbuf s.bitcnt.toNat ++ ·) hs

/-- The last byte that a read of `n` bits fetches lies before E. -/
theorem withMem_afterBits {n : Nat} (hn : n ≤ s.avb) :
    (s.withMem m).afterBits n = (s.afterBits n).withMem m := by
  have hb : ((s.withMem m).afterBits n).bitbuf = (s.afterBits n).bitbuf := by
    show (if n ≤ s.bitcnt.toNat then s.bitbuf else _) = if n ≤ s.bitcnt.toNat then s.bitbuf else _
    by_cases hc : n ≤ s.bitcnt.toNat
    · rw [if_pos hc, if_pos hc]
    · have h1 := bytesFor_pos (Nat.lt_of_not_le hc)
      have h2 := bytesFor_le hn
      rw [if_neg hc, if_neg hc]
      exact withMem_byteAt h (a := s.pos.toNat + s.bytesFor n - 1) (by omega)
  exact congrArg (fun b => ({ (s.afterBits n).withMem m with bitbuf := b } : State)) hb

theorem fieldEffect_withMem (n : Nat) (ext : Nat → Word) :
    fieldEffect n ext (s.withMem m) = (fieldEffect n ext s).withMem m := by
  rw [fieldEffect, fieldEffect, State.withMem_avb, withMem_rawBits h]
  split
  · rfl
  · rw [withMem_afterBits h (by omega)]; rfl

theorem bytesEffect_withMem (k : Nat) (ext : Nat → Word) :
    bytesEffect k ext (s.withMem m) = (bytesEffect k ext s).withMem m := by
  rw [bytesEffect, bytesEffect, State.withMem_pos, State.withMem_effEnd]
  split
  · rfl
  · rw [bytesToNat_congr_range (s := s) (t := s.withMem m) fun j _ hj => withMem_byteAt h (by omega)]; rfl

theorem escStartEffect_withMem : escStartEffect (s.withMem m) = (escStartEffect s).withMem m := by
  rw [escStartEffect, escStartEffect, State.withMem_pos, State.withMem_effEnd]
  split
  · rw [withMem_byteAt h (a := s.pos.toNat) (by omega), withMem_byteAt h (a := s.pos.toNat + 1) (by omega)]; rfl
  · split
    · rw [withMem_byteAt h (a := s.pos.toNat) (by omega)]; rfl
    · rfl

theorem escByteinEffect_withMem : escByteinEffect (s.withMem m) = (escByteinEffect s).withMem m := by
  have hm : (s.withMem m).atMarker = s.atMarker := rfl
  rw [escByteinEffect, escByteinEffect, State.withMem_esc, hm, State.withMem_pos,
    State.withMem_effEnd]
  split
  · split
    · rfl
    · split
      · rw [withMem_byteAt h (by assumption)]; rfl
      · rfl
  · rfl

theorem effect_withMem (i : Instr) : effect i (s.withMem m) = (effect i s).withMem m := by
  cases i with
  | readBit => exact fieldEffect_withMem h 1 zext32
  | readBits n =>
    rw [effect, effect]
    split
    · exact fieldEffect_withMem h _ _
    · rfl
  | readSbits n =>
    rw [effect, effect]
    split
    · exact fieldEffect_withMem h _ _
    · rfl
  | readByte => exact bytesEffect_withMem h 1 zext32
  | readU16 => exact bytesEffect_withMem h 2 zext32
  | readU32 => exact bytesEffect_withMem h 4 zext32
  | readS8 => exact bytesEffect_withMem h 1 (sext 8)
  | readS16 => exact bytesEffect_withMem h 2 (sext 16)
  | readS32 => exact bytesEffect_withMem h 4 (sext 32)
  | align => rfl
  | skip n =>
    rw [effect, effect, State.withMem_pos, State.withMem_effEnd]
    split <;> rfl
  | setLim a => rfl
  | getPos => rfl
  | getStatus => rfl
  | escStart => exact escStartEffect_withMem h
  | escBytein => exact escByteinEffect_withMem h

end

/-- Settles O51, by the command: what each fetches lies before E. -/
theorem bytesBeyondENeverSeen : Obligations.BytesBeyondENeverSeen := by
  intro i s m h
  exact ⟨effect i s, exec_effect i s, effect_withMem h i ▸ exec_effect i (s.withMem m)⟩

/-! ### Single registers -/

/-- Settles O21: READ_BITS takes its field off the queue (`afterBits_rawBits`). -/
theorem rawBitsAreAQueue : Obligations.RawBitsAreAQueue := by
  refine ⟨rawBits_length, fun s n hn ha => ⟨_, exec_effect _ s, ?_⟩⟩
  rw [effect, if_pos hn, fieldEffect, if_neg (by omega)]
  exact ⟨afterBits_rawBits ha, rfl⟩

/-- A command moves `pos` forward, and beyond no readable byte. -/
theorem Leaves.pos_bounds {i : Instr} {s t : State} (hl : Leaves i s t) :
    s.pos.toNat ≤ t.pos.toNat ∧ t.pos.toNat ≤ max s.pos.toNat s.effEnd := by
  cases hl with
  | exhausted => rw [exhausted_pos_toNat]; omega
  | bits _ v hn =>
    have := bytesFor_le hn
    rw [State.answered_pos, afterBits_pos_toNat hn]; omega
  | bytes _ v hk => rw [State.answered_pos, afterBytes_pos_toNat hk]; omega
  | startedBoth _ v hp => simp only [State.answered_pos, pos_add_two hp]; omega
  | startedLast _ v hp => simp only [State.answered_pos, pos_succ (s := s) (by omega)]; omega
  | fetched _ _ _ v hp => simp only [State.answered_pos, pos_succ hp]; omega
  | rejected | aligned | limited | observed | startedEmpty | filled =>
    exact ⟨Nat.le_refl _, Nat.le_max_left _ _⟩

theorem Leaves.len {i : Instr} {s t : State} (hl : Leaves i s t) : t.len = s.len := by
  cases hl <;> rfl

/-- Settles O34: no command passes E, which is at most LEN. -/
theorem posAdvancesWithinStream : Obligations.PosAdvancesWithinStream := by
  intro i s hpos
  obtain ⟨t, ht, hl⟩ := exec_leaves i s
  obtain ⟨hge, hle⟩ := hl.pos_bounds
  have hE := s.effEnd_le_len
  exact ⟨t, ht, hge, by rw [hl.len]; omega⟩

/-- The commands whose escape fetch finds no readable byte (43_escape_path R141). -/
def FetchesFill (i : Instr) (s : State) : Prop :=
  (i = .escStart ∧ s.effEnd < s.pos.toNat + 2)
    ∨ (i = .escBytein ∧ s.esc = true ∧ ¬ (s.b0 = 0xFF#8 ∧ 0x8F#8 < s.b1) ∧ s.effEnd ≤ s.pos.toNat)

theorem not_fetchesFill {i : Instr} {s : State} (hstart : i ≠ .escStart) (hbytein : i ≠ .escBytein) :
    ¬ FetchesFill i s := by
  rintro (⟨hi, -⟩ | ⟨hi, -⟩)
  · exact hstart hi
  · exact hbytein hi

theorem not_fetchesFill_of_isRawPath {i : Instr} {s : State} (h : isRawPath i = true) : ¬ FetchesFill i s :=
  not_fetchesFill (fun hi => by simp [hi, isRawPath] at h) (fun hi => by simp [hi, isRawPath] at h)

/-- `fill` is set exactly by an escape fetch without a byte. -/
theorem Leaves.fill_iff {i : Instr} {s t : State} (hl : Leaves i s t) :
    t.fill = true ↔ s.fill = true ∨ FetchesFill i s := by
  have hkept (h : ¬ FetchesFill i s) : s.fill = true ↔ s.fill = true ∨ FetchesFill i s := by simp [h]
  have hset (h : FetchesFill i s) : true = true ↔ s.fill = true ∨ FetchesFill i s := by simp [h]
  cases hl with
  | exhausted hraw | bits hraw | bytes hraw | aligned hraw =>
    exact hkept (not_fetchesFill_of_isRawPath hraw)
  | rejected hstart hesc =>
    refine hkept ?_
    rintro (⟨hi, -⟩ | ⟨hi, he, -⟩)
    · exact hstart hi
    · simp [hesc hi] at he
  | limited a hi => exact hkept (not_fetchesFill (by simp [hi]) (by simp [hi]))
  | observed v hstart hmark =>
    refine hkept ?_
    rintro (⟨hi, -⟩ | ⟨hi, -, hm, -⟩)
    · exact hstart hi
    · exact hm ((State.atMarker_iff s).mp (hmark hi))
  | startedBoth hi v hp =>
    refine hkept ?_
    rintro (⟨-, hlt⟩ | ⟨hb, -⟩)
    · omega
    · simp [hi] at hb
  | startedLast hi v hp => exact hset (.inl ⟨hi, by omega⟩)
  | startedEmpty hi v hp => exact hset (.inl ⟨hi, by omega⟩)
  | fetched hi he hm v hp =>
    refine hkept ?_
    rintro (⟨hs, -⟩ | ⟨-, -, -, hle⟩)
    · simp [hi] at hs
    · omega
  | filled hi he hm v hp => exact hset (.inr ⟨hi, he, mt (State.atMarker_iff s).mpr hm, hp⟩)

/-- `eos` and `ill` follow the CODE of the response. -/
theorem Leaves.code_flags {i : Instr} {s t : State} (hl : Leaves i s t) : ∃ r, t.resp = some r
    ∧ (t.eos = true ↔ s.eos = true ∨ r.code = .exh) ∧ (t.ill = true ↔ s.ill = true ∨ r.code = .ill) := by
  cases hl <;> exact ⟨_, rfl, by simp, by simp⟩

/-- Settles O43: `eos` and `ill` by the CODE, `fill` by the escape fetches. -/
theorem stickyFlagsOnlySet : Obligations.StickyFlagsOnlySet := by
  intro i s
  obtain ⟨t, ht, hl⟩ := exec_leaves i s
  obtain ⟨r, hr, heos, hill⟩ := hl.code_flags
  exact ⟨t, r, ht, hr, heos, hill, hl.fill_iff⟩

/-- Settles O44: the one way to end that writes `lim` is SET_LIM's. -/
theorem onlySetLimWritesLim : Obligations.OnlySetLimWritesLim := by
  intro i s hne
  obtain ⟨t, ht, hl⟩ := exec_leaves i s
  refine ⟨t, ht, ?_⟩
  cases hl with
  | limited a hi => exact absurd hi (hne a)
  | _ => rfl

/-- Settles O53: the ways to end that write `b0` and `b1` are those of the two escape commands. -/
theorem onlyEscapeCommandsWriteLookahead : Obligations.OnlyEscapeCommandsWriteLookahead := by
  intro i s hstart hbytein
  obtain ⟨t, ht, hl⟩ := exec_leaves i s
  refine ⟨t, ht, ?_⟩
  cases hl with
  | startedBoth hi | startedLast hi | startedEmpty hi => exact absurd hi hstart
  | fetched hi | filled hi => exact absurd hi hbytein
  | _ => exact ⟨rfl, rfl⟩

/-- Settles O7, by computation. -/
theorem resetRegisterValues : Obligations.ResetRegisterValues := by
  unfold Obligations.ResetRegisterValues
  decide

/-- Settles O11: the idle step. -/
theorem idleKeepsState : Obligations.IdleKeepsState := fun _ => step_idle

theorem decodeZ_error {i : Instr} {arg : Word} (h : arg ≠ 0#32) : decodeZ i arg = .error .argNotZero :=
  if_neg h

/-- An opcode answers ILL on the arguments with which it decodes to no command. -/
theorem answersIll_of_decodeFields {op : BitVec 8} {bad : Word → Prop}
    (h : ∀ arg, bad arg → ∃ r, decodeFields op.toNat arg = .error r) : AnswersIll op bad := by
  intro s rest arg hbad hbox
  obtain ⟨r, hr⟩ := h arg hbad
  rw [step_command hbox]
  exact runWord_error ((decode_commandWord op arg).trans hr) _

theorem status_getLsbD (s : State) (k : Nat) : s.status.getLsbD k = BitVec.getLsbD
    (0#24 ++ s.bitcnt ++ BitVec.ofBool s.esc ++ BitVec.ofBool s.ill ++ BitVec.ofBool s.fill
      ++ BitVec.ofBool s.eos) k := rfl

/-- Above the flags STATUS holds `bitcnt`, and 0 above that. -/
theorem status_getLsbD_add_four (s : State) (k : Nat) :
    s.status.getLsbD (4 + k) = s.bitcnt.getLsbD k := by
  have h : ¬ 4 + k < 1 ∧ ¬ 4 + k - 1 < 1 ∧ ¬ 4 + k - 1 - 1 < 1 ∧ ¬ 4 + k - 1 - 1 - 1 < 1 := by omega
  have hk : 4 + k - 1 - 1 - 1 - 1 = k := by omega
  rw [status_getLsbD]
  simp only [BitVec.getLsbD_append, h, hk, if_false, BitVec.getLsbD_zero]
  split
  · rfl
  · exact (BitVec.getLsbD_of_ge _ _ (by omega)).symm

/-- The fields of STATUS (10_state R30). -/
theorem status_fields (s : State) : s.status.getLsbD 0 = s.eos ∧ s.status.getLsbD 1 = s.fill
    ∧ s.status.getLsbD 2 = s.ill ∧ s.status.getLsbD 3 = s.esc ∧ s.status.extractLsb' 4 4 = s.bitcnt
    ∧ s.status.extractLsb' 8 24 = 0#24 := by
  refine ⟨?eos, ?fill, ?ill, ?esc, ?bitcnt, ?zero⟩
  case bitcnt =>
    apply BitVec.eq_of_getLsbD_eq
    intro k hk
    simp [status_getLsbD_add_four, hk]
  case zero =>
    apply BitVec.eq_of_getLsbD_eq
    intro k hk
    have h8 : 8 + k = 4 + (4 + k) := by omega
    simp [h8, status_getLsbD_add_four]
  all_goals simp only [status_getLsbD, BitVec.getLsbD_append]; simp

/-- Settles O32, by the fields of STATUS. -/
theorem getStatusRule : Obligations.GetStatusRule :=
  ⟨rfl, fun s => ⟨s.status, rfl, status_fields s⟩,
    answersIll_of_decodeFields fun _ h => ⟨_, decodeZ_error h⟩⟩

end Sys2Proof.Machine

/-! PROOFS. Family 20_memory: how the stream's bytes make values, that no command writes the stream, and how many
bytes each passes over. -/

namespace Sys2Proof.Machine

/-! ### Bytes as numbers -/

/-- One more byte below a big-endian number. -/
theorem append_byte_toNat {w : Nat} (x : BitVec w) (b : Byte) : (x ++ b).toNat = 256 * x.toNat + b.toNat := by
  have hb : b.toNat < 2 ^ 8 := b.isLt
  rw [BitVec.toNat_append, ← Nat.shiftLeft_add_eq_or_of_lt hb, Nat.shiftLeft_eq, Nat.mul_comm]

/-! The big-endian number of 1, 2 and 4 bytes is that of the bytes put together (20_memory R44). -/

theorem bytesToNat_one (s : State) (a : Nat) : bytesToNat s a 1 0 = (s.byteAt a).toNat := by
  simp [bytesToNat]

theorem bytesToNat_two (s : State) (a : Nat) :
    bytesToNat s a 2 0 = (s.byteAt a ++ s.byteAt (a + 1)).toNat := by
  simp [bytesToNat, append_byte_toNat]

theorem bytesToNat_four (s : State) (a : Nat) : bytesToNat s a 4 0 =
    (s.byteAt a ++ s.byteAt (a + 1) ++ s.byteAt (a + 2) ++ s.byteAt (a + 3)).toNat := by
  simp only [bytesToNat, append_byte_toNat, Nat.mul_zero, Nat.zero_add, Nat.add_assoc, Nat.reduceAdd]

theorem zext32_toNat {w : Nat} (x : BitVec w) : zext32 x.toNat = x.setWidth 32 := BitVec.ofNat_toNat ..

/-- The bits of a byte, most significant first, make its number (20_memory R45). -/
theorem bitsToNat_byteBits (b : Byte) (c : Nat) : bitsToNat (byteBits b c) = b.toNat % 2 ^ c := by
  induction c with
  | zero => simp [bitsToNat, Nat.mod_one]
  | succ c ih =>
    rw [byteBits_succ, bitsToNat_cons, byteBits_length, ih, Nat.mod_pow_succ, ← Nat.toNat_testBit, Nat.mul_comm,
      Nat.add_comm]
    rfl

/-- The bits of whole bytes make their big-endian number. -/
theorem bytesToNat_eq_bitsToNat (s : State) (k : Nat) : ∀ a v : Nat,
    bytesToNat s a k v = v * 2 ^ (8 * k) + bitsToNat (s.streamBits a k) := by
  induction k with
  | zero => intro a v; simp [bytesToNat, State.streamBits, bitsToNat]
  | succ k ih =>
    intro a v
    have hb : (s.byteAt a).toNat % 2 ^ 8 = (s.byteAt a).toNat := Nat.mod_eq_of_lt (s.byteAt a).isLt
    have hpow : 2 ^ (8 * (k + 1)) = 256 * 2 ^ (8 * k) := by rw [Nat.mul_succ, Nat.pow_add, Nat.mul_comm]
    rw [bytesToNat, ih, streamBits_succ, bitsToNat_append, bitsToNat_byteBits, streamBits_length, hb, hpow,
      Nat.add_mul, Nat.mul_comm 256 v, Nat.mul_assoc, Nat.add_assoc]

theorem streamBits_take (s : State) {k m : Nat} (h : k ≤ m) :
    ∀ a, (s.streamBits a m).take (8 * k) = s.streamBits a k := by
  induction k generalizing m with
  | zero => intro a; rfl
  | succ k ih =>
    intro a
    obtain ⟨m, rfl⟩ : ∃ m', m = m' + 1 := ⟨m - 1, by omega⟩
    have hl : 8 * (k + 1) = (byteBits (s.byteAt a) 8).length + 8 * k := by rw [byteBits_length]; omega
    rw [streamBits_succ, streamBits_succ, hl, List.take_length_add_append, ih (by omega)]

/-! ### Whole byte reads -/

/-- A byte read meets its whole rule if its opcode is of form Z and its extension gives the value stated. -/
theorem byteReadRule_of_bytesEffect {i : Instr} {op : BitVec 8} {k : Nat} {ext : Nat → Word}
    {value : State → Nat → Word} (hop : ∀ arg, decodeFields op.toNat arg = decodeZ i arg)
    (heff : ∀ s, effect i s = bytesEffect k ext s)
    (hval : ∀ s a, ext (bytesToNat s a k 0) = value s a) : ByteReadRule i op k value := by
  refine ⟨?word, fun s h => ?readable, fun s h => ?short, ?illegal⟩
  case word => rw [decode_commandWord, hop, decodeZ_ok]; exact ⟨rfl, rfl⟩
  case readable => rw [exec_effect, heff, bytesEffect, if_neg (by omega), hval]
  case short => rw [exec_effect, heff, bytesEffect, if_pos h]
  case illegal => exact answersIll_of_decodeFields fun arg h => ⟨_, (hop arg).trans (decodeZ_error h)⟩

/-- Settles O25: the three reads share one shape and differ in how many bytes they put together. -/
theorem unsignedByteReadRules : Obligations.UnsignedByteReadRules := by
  refine ⟨?byte, ?u16, ?u32⟩
  case byte =>
    refine byteReadRule_of_bytesEffect (ext := zext32) (fun _ => rfl) (fun _ => rfl) fun s a => ?_
    rw [bytesToNat_one, zext32_toNat]
  case u16 =>
    refine byteReadRule_of_bytesEffect (ext := zext32) (fun _ => rfl) (fun _ => rfl) fun s a => ?_
    rw [bytesToNat_two, zext32_toNat]
  case u32 =>
    refine byteReadRule_of_bytesEffect (ext := zext32) (fun _ => rfl) (fun _ => rfl) fun s a => ?_
    rw [bytesToNat_four, zext32_toNat, BitVec.setWidth_eq]

/-! ### Bit reads of whole bytes on aligned data -/

section
variable {s : State} (hc : s.bitcnt = 0#4)
include hc

theorem avb_aligned : s.avb = 8 * (s.effEnd - s.pos.toNat) := by
  rw [State.avb, hc, BitVec.toNat_ofNat]; omega

theorem bytesFor_aligned (k : Nat) : s.bytesFor (8 * k) = k := by
  rw [State.bytesFor, hc, BitVec.toNat_ofNat]; omega

/-- With no bit pending, a field of whole bytes is their big-endian number. -/
theorem bitsToNat_take_rawBits_aligned {k : Nat} (hk : k ≤ s.effEnd - s.pos.toNat) :
    bitsToNat (s.rawBits.take (8 * k)) = bytesToNat s s.pos.toNat k 0 := by
  have hraw : s.rawBits = s.streamBits s.pos.toNat (s.effEnd - s.pos.toNat) := by
    rw [State.rawBits, hc]; rfl
  rw [hraw, streamBits_take s hk, bytesToNat_eq_bitsToNat, Nat.zero_mul, Nat.zero_add]

/-- A bit read of `k` whole bytes and a byte read of `k` bytes fail together, and else take the same bytes. -/
theorem fieldEffect_agrees_bytesEffect (k : Nat) (hk : 0 < k) (ext : Nat → Word) :
    AgreeWhereOk (.next (fieldEffect (8 * k) ext s)) (.next (bytesEffect k ext s)) := by
  have havb := avb_aligned hc
  by_cases hshort : s.pos.toNat + k > s.effEnd
  · rw [fieldEffect, if_pos (by omega), bytesEffect, if_pos hshort]
    exact ⟨_, _, _, _, rfl, rfl, rfl, rfl, rfl, fun _ => rfl, rfl⟩
  · have hval := bitsToNat_take_rawBits_aligned hc (k := k) (by omega)
    rw [fieldEffect, if_neg (by omega), bytesEffect, if_neg hshort]
    refine ⟨_, _, _, _, rfl, rfl, rfl, rfl, rfl, fun _ => congrArg ext hval, ?_⟩
    rw [State.answered_pos, State.answered_pos, State.afterBits_pos, State.afterBytes_pos, bytesFor_aligned hc]

end

/-- Settles O24: both reads of a pair are of the same number of bytes. -/
theorem mixedWidthsAgree : Obligations.MixedWidthsAgree := by
  intro s hc
  simp only [exec_effect]
  exact ⟨fieldEffect_agrees_bytesEffect hc 2 (by omega) zext32,
    fieldEffect_agrees_bytesEffect hc 1 (by omega) zext32,
    fieldEffect_agrees_bytesEffect hc 4 (by omega) zext32⟩

/-! ### What every command leaves of the stream, and the bytes it passes over -/

theorem Leaves.mem {i : Instr} {s t : State} (hl : Leaves i s t) : t.mem = s.mem := by
  cases hl <;> rfl

theorem Leaves.inbox {i : Instr} {s t : State} (hl : Leaves i s t) : t.inbox = s.inbox := by
  cases hl <;> rfl

/-- Settles O45: no way to end writes the stream. -/
theorem commandsKeepStream : Obligations.CommandsKeepStream := by
  intro i s
  obtain ⟨t, ht, hl⟩ := exec_leaves i s
  have hread (a : Nat) : t.byteAt a = s.byteAt a := congrArg (Memory.read · a) hl.mem
  exact ⟨t, ht, hl.mem, hl.len, hread, hl.inbox⟩

/-- `t` holds a response and, where that is OK, stands `k` bytes after `s`. -/
def PassesWhereOk (k : Nat) (s t : State) : Prop :=
  ∃ r, t.resp = some r ∧ (r.code = .ok → t.pos.toNat = s.pos.toNat + k)

theorem exhausted_passes (k : Nat) (s : State) : PassesWhereOk k s s.exhausted := ⟨_, rfl, nofun⟩

theorem rejected_passes (k : Nat) (s : State) : PassesWhereOk k s s.rejected := ⟨_, rfl, nofun⟩

theorem answered_passes {k : Nat} {s t : State} (v : Word) (h : t.pos.toNat = s.pos.toNat + k) :
    PassesWhereOk k s (t.answered v) := ⟨_, rfl, fun _ => h⟩

theorem fieldEffect_passes (n : Nat) (ext : Nat → Word) (s : State) :
    PassesWhereOk (s.bytesFor n) s (fieldEffect n ext s) := by
  unfold fieldEffect
  split
  · exact exhausted_passes _ s
  · exact answered_passes _ (afterBits_pos_toNat (by omega))

theorem bytesEffect_passes (k : Nat) (ext : Nat → Word) (s : State) :
    PassesWhereOk k s (bytesEffect k ext s) := by
  unfold bytesEffect
  split
  · exact exhausted_passes _ s
  · exact answered_passes _ (afterBytes_pos_toNat (by omega))

/-- ESC_START takes the bytes that are readable, two at most (43_escape_path R142). -/
theorem escStartEffect_passes (s : State) :
    PassesWhereOk (min 2 (s.effEnd - s.pos.toNat)) s (escStartEffect s) := by
  unfold escStartEffect
  split
  next h2 => exact answered_passes _ ((pos_add_two h2).trans (by omega))
  next h2 =>
    split
    next h1 => exact answered_passes _ ((pos_succ (s := s) (by omega)).trans (by omega))
    next h1 => exact answered_passes _ (show s.pos.toNat = _ by omega)

/-- Off a marker ESC_BYTEIN takes the next byte if one is readable (43_escape_path R143). -/
theorem escByteinEffect_passes (s : State) :
    PassesWhereOk (if s.atMarker then 0 else min 1 (s.effEnd - s.pos.toNat)) s (escByteinEffect s) := by
  unfold escByteinEffect
  by_cases he : s.esc = true
  · by_cases hm : s.atMarker = true
    · rw [if_pos he, if_pos hm, if_pos hm]
      exact answered_passes _ rfl
    · rw [if_pos he, if_neg hm, if_neg hm]
      split
      next hp => exact answered_passes _ ((pos_succ hp).trans (by omega))
      next hp => exact answered_passes _ (show s.pos.toNat = _ by omega)
  · rw [if_neg he]
    exact rejected_passes _ s

/-- Every command passes over the bytes of its row of R49. -/
theorem effect_passes (i : Instr) (s : State) : PassesWhereOk (bytesTaken i s) s (effect i s) := by
  cases i with
  | readBit => exact fieldEffect_passes 1 zext32 s
  | readBits n =>
    rw [effect]
    split
    · exact fieldEffect_passes _ _ s
    · exact rejected_passes _ s
  | readSbits n =>
    rw [effect]
    split
    · exact fieldEffect_passes _ _ s
    · exact rejected_passes _ s
  | readByte => exact bytesEffect_passes 1 zext32 s
  | readU16 => exact bytesEffect_passes 2 zext32 s
  | readU32 => exact bytesEffect_passes 4 zext32 s
  | readS8 => exact bytesEffect_passes 1 (sext 8) s
  | readS16 => exact bytesEffect_passes 2 (sext 16) s
  | readS32 => exact bytesEffect_passes 4 (sext 32) s
  | skip n =>
    rw [effect]
    split
    · exact exhausted_passes _ s
    · exact answered_passes _ (afterBytes_pos_toNat (by omega))
  | escStart => exact escStartEffect_passes s
  | escBytein => exact escByteinEffect_passes s
  | align | setLim | getPos | getStatus => exact answered_passes _ rfl

/-- Settles O46, by the command. -/
theorem bytesTakenPerCommand : Obligations.BytesTakenPerCommand := by
  intro i s
  obtain ⟨r, hr, hpos⟩ := effect_passes i s
  exact ⟨effect i s, r, exec_effect i s, hr, hpos⟩

end Sys2Proof.Machine

/-! PROOFS. Family 30_encoding: the decoder and the encoder are inverse to each other, which words each command
has, the response word, and the assembler's text. -/

namespace Sys2Proof

/-! ### The round trip

`decode_eq_ok_iff` says once which words decode to a command: the word of that command, where it is well
formed. Both directions of the round trip and every row of the opcode map are read off it. -/

/-- The opcode map accepts only the opcode and the argument of a well-formed command, by its rows. -/
theorem of_decodeFields_eq_ok {op : Nat} {arg : Word} {i : Instr} (h : decodeFields op arg = .ok i) :
    i.wf = true ∧ i.op.toNat = op ∧ i.arg = arg := by
  unfold decodeFields at h
  split at h
  case h_2 =>
    obtain ⟨hzero, ⟨-, hn⟩, rfl⟩ := decodeN_ok.mp h
    exact ⟨(wf_readBits _).mpr hn, rfl, setWidth_count hzero⟩
  case h_3 =>
    obtain ⟨hzero, hn, rfl⟩ := decodeN_ok.mp h
    exact ⟨(wf_readSbits _).mpr hn, rfl, setWidth_count hzero⟩
  case h_11 | h_12 =>
    cases h
    exact ⟨rfl, rfl, rfl⟩
  case h_17 => cases h
  all_goals
    obtain ⟨rfl, rfl⟩ := decodeZ_ok.mp h
    exact ⟨rfl, rfl, rfl⟩

/-- Form N accepts a count in its range. -/
theorem decodeN_count {lo : Nat} {mk : BitVec 6 → Instr} {n : BitVec 6} (h : lo ≤ n.toNat ∧ n.toNat ≤ 32) :
    decodeN lo mk (n.setWidth 32) = .ok (mk n) := by
  rw [decodeN_ok, count_setWidth]
  exact ⟨reserved_setWidth n, h, rfl⟩

/-- The opcode map gives a well-formed command back from its opcode and its argument. -/
theorem decodeFields_op_arg {i : Instr} (h : i.wf = true) : decodeFields i.op.toNat i.arg = .ok i := by
  cases i with
  | readBits n => exact decodeN_count ⟨Nat.zero_le _, (wf_readBits n).mp h⟩
  | readSbits n => exact decodeN_count ((wf_readSbits n).mp h)
  | _ => rfl

/-- A word is the word with these fields. -/
theorem commandWord_eq_iff {op : BitVec 8} {arg : Word} {w : CmdWord} :
    commandWord op arg = w ↔ opField w = op ∧ argField w = arg := by
  constructor
  · rintro rfl
    exact encode_fields op arg
  · rintro ⟨rfl, rfl⟩
    exact commandWord_fields w

theorem decode_encode {i : Instr} (h : i.wf = true) : decode (encode i) = .ok i :=
  (decode_commandWord i.op i.arg).trans (decodeFields_op_arg h)

/-- The words that decode to a command. -/
theorem decode_eq_ok_iff {w : CmdWord} {i : Instr} : decode w = .ok i ↔ i.wf = true ∧ encode i = w := by
  constructor
  · intro h
    obtain ⟨hwf, hop, harg⟩ := of_decodeFields_eq_ok h
    exact ⟨hwf, commandWord_eq_iff.mpr ⟨(BitVec.eq_of_toNat_eq hop).symm, harg.symm⟩⟩
  · rintro ⟨hwf, rfl⟩
    exact decode_encode hwf

/-- Settles O2: the opcode map on the fields of the command's own word. -/
theorem decodeOfEncode : Obligations.DecodeOfEncode := fun _ => decode_encode

/-- Settles O3, by the words that decode to a command. -/
theorem encodeOfDecode : Obligations.EncodeOfDecode := fun _ _ => decode_eq_ok_iff.mp

/-! ### The opcode map, row by row -/

/-- The row of a command whose word is `v` (form Z, once the command has no argument). -/
theorem decode_eq_ok_iff_eq {w v : CmdWord} {i : Instr} (hwf : i.wf = true) (hv : encode i = v) :
    decode w = .ok i ↔ w = v := by
  rw [decode_eq_ok_iff, hv]
  exact ⟨fun h => h.2.symm, fun h => ⟨hwf, h.symm⟩⟩

/-- A word is its bits 39:6 and its bits 5:0. -/
theorem cmdWord_ext {v w : CmdWord} (hhigh : v.extractLsb' 6 34 = w.extractLsb' 6 34)
    (hlow : v.extractLsb' 0 6 = w.extractLsb' 0 6) : v = w := by
  apply BitVec.eq_of_getLsbD_eq
  intro k hk
  obtain hk6 | hk6 := Nat.lt_or_ge k 6
  · simpa [hk6] using congrArg (·.getLsbD k) hlow
  · have hsub : k - 6 < 34 := by omega
    simpa [hsub, Nat.add_sub_of_le hk6] using congrArg (·.getLsbD (k - 6)) hhigh

/-- Bits 39:6 and bits 5:0 of the word of an N-form command. -/
theorem commandWord_count_high (op : BitVec 8) (n : BitVec 6) :
    (commandWord op (n.setWidth 32)).extractLsb' 6 34 = op.setWidth 34 <<< 26 := by
  apply BitVec.eq_of_getLsbD_eq
  intro k hk
  obtain hk26 | hk26 := Nat.lt_or_ge k 26
  · simp [commandWord_getLsbD, hk, hk26, show 6 + k < 32 by omega]
  · simp [commandWord_getLsbD, hk, show ¬ 6 + k < 32 by omega, show ¬ k < 26 by omega,
      show 6 + k - 32 = k - 26 by omega]

theorem commandWord_count_low (op : BitVec 8) (n : BitVec 6) :
    (commandWord op (n.setWidth 32)).extractLsb' 0 6 = n := by
  apply BitVec.eq_of_getLsbD_eq
  intro k hk
  simp [commandWord_getLsbD, hk, show k < 32 by omega]

/-- The word of an N-form command: `w[39:6] = OP << 26`, and the count in the other bits. -/
theorem commandWord_count_eq_iff {op : BitVec 8} {n : BitVec 6} {w : CmdWord} :
    commandWord op (n.setWidth 32) = w ↔
      w.extractLsb' 6 34 = op.setWidth 34 <<< 26 ∧ w.extractLsb' 0 6 = n := by
  constructor
  · rintro rfl
    exact ⟨commandWord_count_high op n, commandWord_count_low op n⟩
  · rintro ⟨hhigh, hlow⟩
    exact cmdWord_ext ((commandWord_count_high op n).trans hhigh.symm)
      ((commandWord_count_low op n).trans hlow.symm)

theorem decode_eq_readBits_iff {w : CmdWord} {n : BitVec 6} : decode w = .ok (.readBits n) ↔
    w.extractLsb' 6 34 = 0x02#34 <<< 26 ∧ w.extractLsb' 0 6 = n ∧ n.toNat ≤ 32 :=
  (decode_eq_ok_iff.trans and_comm).trans
    ((and_congr commandWord_count_eq_iff (wf_readBits n)).trans and_assoc)

theorem decode_eq_readSbits_iff {w : CmdWord} {n : BitVec 6} : decode w = .ok (.readSbits n) ↔
    w.extractLsb' 6 34 = 0x03#34 <<< 26 ∧ w.extractLsb' 0 6 = n ∧ 1 ≤ n.toNat ∧ n.toNat ≤ 32 :=
  (decode_eq_ok_iff.trans and_comm).trans
    ((and_congr commandWord_count_eq_iff (wf_readSbits n)).trans and_assoc)

theorem decode_eq_skip_iff {w : CmdWord} {n : Word} : decode w = .ok (.skip n) ↔
    w.extractLsb' 32 8 = 0x11#8 ∧ w.extractLsb' 0 32 = n :=
  decode_eq_ok_iff.trans ((and_iff_right rfl).trans commandWord_eq_iff)

theorem decode_eq_setLim_iff {w : CmdWord} {a : Word} : decode w = .ok (.setLim a) ↔
    w.extractLsb' 32 8 = 0x12#8 ∧ w.extractLsb' 0 32 = a :=
  decode_eq_ok_iff.trans ((and_iff_right rfl).trans commandWord_eq_iff)

theorem op_mem_opcodes (i : Instr) : i.op ∈ Machine.opcodes := by
  cases i <;> simp [Instr.op, Machine.opcodes, Machine.zOpcodes]

/-- A word whose opcode is not listed is no command: a command's word holds its opcode. -/
theorem decode_error_of_opcode {w : CmdWord} (h : opField w ∉ Machine.opcodes) : ∃ r, decode w = .error r := by
  cases hdec : decode w with
  | error r => exact ⟨r, rfl⟩
  | ok i =>
    obtain ⟨-, rfl⟩ := decode_eq_ok_iff.mp hdec
    rw [encode, opField_commandWord] at h
    exact absurd (op_mem_opcodes i) h

/-- Settles O1, by the form of each row: Z, N or U. -/
theorem decodeMatchesOpcodeMap : Obligations.DecodeMatchesOpcodeMap := by
  intro w
  refine ⟨?_, fun _ => decode_eq_readBits_iff, fun _ => decode_eq_readSbits_iff, ?_, ?_, ?_, ?_, ?_, ?_, ?_,
    fun _ => decode_eq_skip_iff, fun _ => decode_eq_setLim_iff, ?_, ?_, ?_, ?_, decode_error_of_opcode⟩
  all_goals exact decode_eq_ok_iff_eq rfl rfl

/-- Settles O4, by computation. -/
theorem writtenWordsDecode : Obligations.WrittenWordsDecode :=
  ⟨rfl, rfl, rfl, rfl, rfl, rfl, rfl, rfl⟩

end Sys2Proof

namespace Sys2Proof.Machine

/-! ### Responses -/

theorem codedResponse_ok {s t : State} {v : Word} (h : t.resp = some ⟨.ok, v⟩) : CodedResponse s t :=
  ⟨⟨.ok, v⟩, h, word_rdata _, .inl ⟨rfl, word_code _⟩⟩

theorem codedResponse_exhausted (s : State) : CodedResponse s s.exhausted :=
  ⟨⟨.exh, Config.draw32 s.draws⟩, rfl, word_rdata _, .inr (.inl ⟨rfl, word_code _, rfl⟩)⟩

theorem codedResponse_rejected (s : State) : CodedResponse s s.rejected :=
  ⟨⟨.ill, 0#32⟩, rfl, word_rdata _, .inr (.inr ⟨rfl, word_code _, rfl⟩)⟩

/-- Every command's response has a CODE and an RDATA that 30_encoding R64 allows. -/
theorem effect_codedResponse (i : Instr) (s : State) : CodedResponse s (effect i s) := by
  obtain hexh | hill | ⟨v, hok⟩ := effect_shape i s
  · exact hexh ▸ codedResponse_exhausted s
  · exact hill ▸ codedResponse_rejected s
  · exact codedResponse_ok hok

/-- A presented word, legal or not, is answered and leaves the port alone. -/
theorem runWord_answers (w : CmdWord) (s : State) :
    ∃ t, runWord w s = .next t ∧ t.inbox = s.inbox ∧ CodedResponse s t := by
  cases hdec : decode w with
  | ok i =>
    exact ⟨effect i s, (runWord_ok hdec s).trans (exec_effect i s), (effect_leaves i s).inbox,
      effect_codedResponse i s⟩
  | error r => exact ⟨s.rejected, runWord_error hdec s, rfl, codedResponse_rejected s⟩

/-- Settles O15: by the command, and by whether the presented word is one. -/
theorem everyCommandIsAnswered : Obligations.EveryCommandIsAnswered := by
  refine ⟨fun i s => ⟨effect i s, exec_effect i s, effect_codedResponse i s⟩, fun s w rest hbox => ?_⟩
  rw [step_command hbox]
  exact runWord_answers w { s with inbox := rest }

theorem escData_getLsbD (fill marker : Bool) (ct : BitVec 4) (byte : Byte) (k : Nat) :
    (escData fill marker ct byte).getLsbD k = if k < 8 then byte.getLsbD k
      else if k < 12 then ct.getLsbD (k - 8)
      else if k = 12 then marker else if k = 13 then fill else false := by
  have h : (escData fill marker ct byte).getLsbD k = BitVec.getLsbD
    (0#18 ++ BitVec.ofBool fill ++ BitVec.ofBool marker ++ ct ++ byte) k := rfl
  rw [h]
  simp only [BitVec.getLsbD_append, BitVec.getLsbD_ofBool]
  grind

/-- Settles O38, field by field over the bits of RDATA. -/
theorem escapeResponseFields : Obligations.EscapeResponseFields := by
  intro fill marker ct byte
  refine ⟨?byte, ?ct, ?marker, ?fill, ?zero⟩
  case marker | fill => exact escData_getLsbD ..
  all_goals
    apply BitVec.eq_of_getLsbD_eq
    intro k hk
    rw [BitVec.getLsbD_extractLsb', escData_getLsbD]
  case byte => simp [hk]
  case ct => simp [hk, show 8 + k < 12 by omega]
  case zero => simp [show ¬ 14 + k < 8 by omega, show ¬ 14 + k < 12 by omega,
    show 14 + k ≠ 12 by omega, show 14 + k ≠ 13 by omega]

/-! ### Assembler text -/

/-- What stands before a `;` decides the line up to its comment. -/
theorem stripComment_append_semicolon (l c : List Char) : stripComment (l ++ ';' :: c) = stripComment l := by
  induction l with
  | nil => rfl
  | cons a l ih =>
    unfold stripComment at ih ⊢
    rw [List.cons_append, List.takeWhile_cons, List.takeWhile_cons, ih]

/-- Settles O6: a line is assembled from what is left of it without its comment. -/
theorem assemblerIgnoresComments : Obligations.AssemblerIgnoresComments := by
  refine ⟨fun l c => ?_, by decide⟩
  rw [assembleLine, assembleLine, stripComment_append_semicolon]

/-- Settles O5: SKIP_BITS k is the N-form word of its count, the others by computation. -/
theorem pseudoInstructionsExpand : Obligations.PseudoInstructionsExpand := by
  refine ⟨⟨rfl, rfl⟩, ⟨rfl, rfl⟩, fun k hlow hhigh => ?_⟩
  have hexpand : (Pseudo.skipBits k).expand = some (.readBits k) := if_pos ⟨hlow, hhigh⟩
  refine ⟨hexpand, ?_⟩
  rw [Pseudo.encode, hexpand, Option.map_some, encode, commandWord_eq_or]
  simp [Instr.op, Instr.arg]

end Sys2Proof.Machine

/-! PROOFS. Family 40_raw_bit_reads: the whole rules of the three bit reads, what they do to AVB, and that an
exhausted stream stays so. -/

namespace Sys2Proof

theorem decodeN_error {lo : Nat} {mk : BitVec 6 → Instr} {arg : Word}
    (h : arg.extractLsb' 6 26 ≠ 0#26 ∨ (arg.extractLsb' 0 6).toNat < lo ∨ 32 < (arg.extractLsb' 0 6).toNat) :
    ∃ r, decodeN lo mk arg = .error r := by
  cases hdec : decodeN lo mk arg with
  | error r => exact ⟨r, rfl⟩
  | ok i =>
    obtain ⟨hzero, hcount, -⟩ := decodeN_ok.mp hdec
    obtain hres | hcnt := h
    · exact absurd hzero hres
    · omega

/-- The word of an N-form command, written `(OP << 32) | n` (30_encoding R69). -/
theorem decode_or_count {op : BitVec 8} {n : BitVec 6} {i : Instr} (hwf : i.wf = true) (hop : i.op = op)
    (harg : i.arg = n.setWidth 32) : decode (op.setWidth 40 <<< 32 ||| n.setWidth 40) = .ok i := by
  have hword : encode i = op.setWidth 40 <<< 32 ||| n.setWidth 40 := by
    rw [encode, hop, harg, commandWord_eq_or, BitVec.setWidth_setWidth (by omega)]
  exact hword ▸ decode_encode hwf

end Sys2Proof

namespace Sys2Proof.Machine

/-! ### The two ends of a bit read -/

theorem fieldEffect_of_le {n : Nat} {s : State} (h : n ≤ s.avb) (ext : Nat → Word) :
    fieldEffect n ext s = (s.afterBits n).answered (ext (bitsToNat (s.rawBits.take n))) := if_neg (by omega)

theorem fieldEffect_of_lt {n : Nat} {s : State} (h : s.avb < n) (ext : Nat → Word) :
    fieldEffect n ext s = s.exhausted := if_pos h

theorem bytesEffect_of_lt {k : Nat} {s : State} (h : s.pos.toNat + k > s.effEnd) (ext : Nat → Word) :
    bytesEffect k ext s = s.exhausted := if_pos h

theorem effect_readBits {n : BitVec 6} (hn : n.toNat ≤ 32) (s : State) :
    effect (.readBits n) s = fieldEffect n.toNat zext32 s := if_pos hn

theorem effect_readSbits {n : BitVec 6} (hn : 1 ≤ n.toNat ∧ n.toNat ≤ 32) (s : State) :
    effect (.readSbits n) s = fieldEffect n.toNat (sext n.toNat) s := if_pos hn

theorem exec_readBits_of_le {n : BitVec 6} {s : State} (hn : n.toNat ≤ 32) (h : n.toNat ≤ s.avb) :
    exec (.readBits n) s = .next ((s.afterBits n.toNat).answered
      (BitVec.ofNat 32 (bitsToNat (s.rawBits.take n.toNat)))) := by
  rw [exec_effect, effect_readBits hn, fieldEffect_of_le h]; rfl

/-! ### Fields of the queue -/

/-- A field of `n` bits is a number below `2^n` (20_memory R45). -/
theorem bitsToNat_take_lt (bs : List Bool) (n : Nat) : bitsToNat (bs.take n) < 2 ^ n :=
  Nat.lt_of_lt_of_le (bitsToNat_lt _) (Nat.pow_le_pow_right (by omega) (List.length_take_le n bs))

/-- A field of at most 32 bits is not cut by the width of RDATA. -/
theorem ofNat_field_toNat (bs : List Bool) {n : Nat} (hn : n ≤ 32) :
    (BitVec.ofNat 32 (bitsToNat (bs.take n))).toNat = bitsToNat (bs.take n) :=
  Nat.mod_eq_of_lt (Nat.lt_of_lt_of_le (bitsToNat_take_lt bs n) (Nat.pow_le_pow_right (by omega) hn))

/-- The first `a + b` bits as a number: the first `a`, then the `b` after them. -/
theorem bitsToNat_take_add {bs : List Bool} {a b : Nat} (h : a + b ≤ bs.length) :
    bitsToNat (bs.take (a + b)) = bitsToNat (bs.take a) * 2 ^ b + bitsToNat ((bs.drop a).take b) := by
  have hlen : ((bs.drop a).take b).length = b := by rw [List.length_take, List.length_drop]; omega
  rw [List.take_add, bitsToNat_append, hlen]

theorem afterBits_zero (s : State) : s.afterBits 0 = s.rawEntry :=
  (s.afterBits_eq_tookBits 0).trans (tookBits_zero _)

/-- Reading `n` bits and then `m` leaves the registers as reading `n + m` does. -/
theorem afterBits_add {s : State} {n m : Nat} (h : n + m ≤ s.avb) :
    (s.afterBits n).afterBits m = s.afterBits (n + m) :=
  tookBits_add (s := s.rawEntry) h

/-- The model's sign extension, which subtracts the weight of the sign bit, is that of bit vectors
(00_scope R13). -/
theorem sext_eq_signExtend {n v : Nat} (hv : v < 2 ^ n) :
    sext n v = (BitVec.ofNat n v).signExtend 32 := by
  have hnat : (BitVec.ofNat n v).toNat = v := Nat.mod_eq_of_lt hv
  have hmsb : (BitVec.ofNat n v).msb = v.testBit (n - 1) := by
    rw [BitVec.msb_eq_getLsbD_last, ← BitVec.testBit_toNat, hnat]
  rw [sext, BitVec.signExtend, BitVec.toInt_eq_msb_cond, hmsb, hnat]
  congr 1
  cases v.testBit (n - 1) <;> simp

/-! ### The three rules -/

/-- READ_BIT answers the bit that TakeBit gives (40_raw_bit_reads R85). -/
theorem exec_readBit_of_takeBit {s t : State} {b : Bool} (havb : 1 ≤ s.avb)
    (ht : takeBit s.rawEntry = .ok (b, t)) :
    exec .readBit s = .next (t.answered (if b then 1#32 else 0#32)) := by
  show execReadBit s = _
  have hlt : ¬ s.rawEntry.avb < 1 := Nat.not_lt.mpr havb
  simp only [execReadBit, hlt, if_false, ht]
  cases b <;> rfl

/-- Settles O18: TakeBit from `bitbuf`, TakeBit of a fetched byte, FailRaw, and the Z-form word. -/
theorem readBitRule : Obligations.ReadBitRule := by
  refine ⟨rfl, fun s hc => ?buffered, fun s hc hp => ?fetched, fun s h => ?short, ?illegal⟩
  case buffered =>
    have havb : 1 ≤ s.avb := Nat.le_add_right_of_le (bitcnt_ne_zero hc)
    exact exec_readBit_of_takeBit havb (takeBit_buffered (s := s.rawEntry) hc)
  case fetched =>
    have havb : 1 ≤ s.avb := by rw [avb_aligned hc]; omega
    exact exec_readBit_of_takeBit havb (takeBit_fetch (s := s.rawEntry) hc hp)
  case short => rw [exec_effect]; exact congrArg _ (fieldEffect_of_lt h _)
  case illegal => exact answersIll_of_decodeFields fun _ h => ⟨_, decodeZ_error h⟩

/-- Settles O19: the field is the front of the queue, and reading none of it is the raw-path entry alone. -/
theorem readBitsRule : Obligations.ReadBitsRule := by
  refine ⟨fun n hn => ?word, fun s n hn h => ?readable, fun s => ?none, fun s n hn h => ?short, ?illegal⟩
  case word => exact decode_or_count (op := 0x02#8) ((wf_readBits n).mpr hn) rfl rfl
  case readable => exact ⟨exec_readBits_of_le hn h, bitsToNat_take_lt _ _⟩
  case none =>
    have hregs : s.afterBits (0#6).toNat = s.rawEntry := afterBits_zero s
    rw [exec_readBits_of_le (Nat.zero_le _) (Nat.zero_le _), hregs]; rfl
  case short => rw [exec_effect, effect_readBits hn, fieldEffect_of_lt h]
  case illegal => exact answersIll_of_decodeFields fun arg h => decodeN_error (h.imp_right .inr)

/-- Settles O20: READ_BITS with the model's sign extension, which is that of bit vectors. -/
theorem readSbitsRule : Obligations.ReadSbitsRule := by
  refine ⟨fun n hpos hn => ?word, fun s n hpos hn h => ?readable, fun s n hpos hn h => ?short, ?illegal⟩
  case word => exact decode_or_count (op := 0x03#8) ((wf_readSbits n).mpr ⟨hpos, hn⟩) rfl rfl
  case readable =>
    rw [exec_effect, effect_readSbits ⟨hpos, hn⟩, fieldEffect_of_le h,
      sext_eq_signExtend (bitsToNat_take_lt _ _)]
  case short => rw [exec_effect, effect_readSbits ⟨hpos, hn⟩, fieldEffect_of_lt h]
  case illegal =>
    exact answersIll_of_decodeFields fun arg h => decodeN_error (h.imp_right (.imp_left (by omega)))

/-- Settles O22: both ways take the same front of the queue and leave the same registers (`afterBits_add`). -/
theorem splitFieldSameBits : Obligations.SplitFieldSameBits := by
  intro s a b hsum havb
  have hab : (a + b).toNat = a.toNat + b.toNat := by rw [BitVec.toNat_add]; omega
  have hrest := afterBits_avb (s := s) (n := a.toNat) (by omega)
  have hfirst := exec_readBits_of_le (s := s) (n := a) (by omega) (by omega)
  have hsecond := exec_readBits_of_le (n := b) (by omega)
    (s := (s.afterBits a.toNat).answered (BitVec.ofNat 32 (bitsToNat (s.rawBits.take a.toNat))))
    (by rw [State.answered_avb]; omega)
  have hwhole := exec_readBits_of_le (s := s) (n := a + b) (by omega) (by omega)
  rw [hab] at hwhole
  have hregs := afterBits_add havb
  refine ⟨_, _, _, _, _, _, hfirst, hsecond, hwhole, rfl, rfl, rfl, ?value, ?pos, ?bitcnt⟩
  case value =>
    rw [ofNat_field_toNat _ (by omega), ofNat_field_toNat _ (by omega), ofNat_field_toNat _ hsum,
      State.answered_rawBits, afterBits_rawBits (by omega), bitsToNat_take_add (by rw [rawBits_length]; exact havb)]
  case pos => exact (congrArg State.pos hregs :)
  case bitcnt => exact (congrArg State.bitcnt hregs :)

/-- A bit read of `n` bits lowers AVB by `n` and sets no flag, or fails for want of them
(40_raw_bit_reads R89). -/
def LowersAvb (n : Nat) (s t : State) : Prop := ∃ r, t.resp = some r
  ∧ (n ≤ s.avb → r.code = .ok ∧ t.avb + n = s.avb ∧ t.eos = s.eos ∧ t.fill = s.fill ∧ t.ill = s.ill)
  ∧ (s.avb < n → r.code = .exh ∧ t.avb = 0 ∧ t.eos = true)

theorem fieldEffect_lowersAvb (n : Nat) (ext : Nat → Word) (s : State) :
    LowersAvb n s (fieldEffect n ext s) := by
  obtain h | h := Nat.lt_or_ge s.avb n
  · rw [fieldEffect_of_lt h]
    exact ⟨_, rfl, fun _ => by omega, fun _ => ⟨rfl, exhausted_avb s, rfl⟩⟩
  · rw [fieldEffect_of_le h]
    exact ⟨_, rfl, fun _ => ⟨rfl, afterBits_avb h, rfl, rfl, rfl⟩, fun _ => by omega⟩

/-- Settles O23: the three bit reads share one shape. -/
theorem rawBitReadsLowerAvb : Obligations.RawBitReadsLowerAvb := by
  intro s i n hi
  have heff : ∃ ext, effect i s = fieldEffect n ext s := by
    obtain ⟨rfl, rfl⟩ | ⟨k, rfl, hn, rfl | ⟨rfl, hpos⟩⟩ := hi
    · exact ⟨_, rfl⟩
    · exact ⟨_, effect_readBits hn s⟩
    · exact ⟨_, effect_readSbits ⟨hpos, hn⟩ s⟩
  obtain ⟨ext, heff⟩ := heff
  obtain ⟨r, hr, hok, hexh⟩ := fieldEffect_lowersAvb n ext s
  exact ⟨_, r, (exec_effect i s).trans (congrArg _ heff), hr, hok, hexh⟩

/-! ### An exhausted stream -/

theorem avb_le_of_registers {s t : State} (hE : t.effEnd = s.effEnd) (hc : t.bitcnt.toNat ≤ s.bitcnt.toNat)
    (hp : s.pos.toNat ≤ t.pos.toNat) : t.avb ≤ s.avb := by
  simp only [State.avb, hE]; omega

/-- No command but SET_LIM makes more bits readable. -/
theorem Leaves.avb_le {i : Instr} {s t : State} (hl : Leaves i s t) (hne : ∀ a, i ≠ .setLim a) :
    t.avb ≤ s.avb := by
  have hpos := hl.pos_bounds.left
  cases hl with
  | exhausted => rw [exhausted_avb]; exact Nat.zero_le _
  | bits _ v hn => exact Nat.le.intro (afterBits_avb hn)
  | limited a hi => exact absurd hi (hne a)
  | rejected | observed | fetched | filled => exact avb_le_of_registers rfl (Nat.le_refl _) hpos
  | bytes | aligned | startedBoth | startedLast | startedEmpty =>
    exact avb_le_of_registers rfl (Nat.zero_le _) hpos

/-- A command that lacks its data fails through FailRaw (60_exceptions R161). -/
theorem effect_of_outOfData {i : Instr} {s : State} (hwf : i.wf = true) (h : OutOfData i s) :
    effect i s = s.exhausted := by
  cases i with
  | readBit => exact fieldEffect_of_lt h _
  | readBits n => rw [effect_readBits ((wf_readBits n).mp hwf), fieldEffect_of_lt h]
  | readSbits n => rw [effect_readSbits ((wf_readSbits n).mp hwf), fieldEffect_of_lt h]
  | readByte | readU16 | readU32 | readS8 | readS16 | readS32 => exact bytesEffect_of_lt h _
  | skip n => exact if_pos h
  | align | setLim | getPos | getStatus | escStart | escBytein => exact h.elim

/-- With nothing readable every command that needs data lacks it (40_raw_bit_reads R84). -/
theorem outOfData_of_avb_eq_zero {i : Instr} {s : State} (havb : s.avb = 0) (hi : needsData i = true) :
    OutOfData i s := by
  have hE := (avb_eq_zero.mp havb).right
  have hbytes {k : Nat} (hk : 0 < k) : s.pos.toNat + k > s.effEnd := by omega
  cases i with
  | readBit => show s.avb < 1; omega
  | readBits n | readSbits n =>
    have hn : 1 ≤ n.toNat := of_decide_eq_true hi
    show s.avb < n.toNat
    omega
  | readByte | readU16 | readU32 | readS8 | readS16 | readS32 => exact hbytes (by omega)
  | skip n => exact hbytes (of_decide_eq_true hi)
  | align | setLim | getPos | getStatus | escStart | escBytein => cases hi

/-- Settles O17: no command but SET_LIM raises AVB or clears `eos`, and SET_LIM sets AVB by the new E. -/
theorem exhaustionIsStable : Obligations.ExhaustionIsStable := by
  refine ⟨fun s => ⟨exhausted_avb s, rfl⟩, fun s i havb hwf hne => ?stays, fun s a havb => ?setLim⟩
  case stays =>
    have hl := effect_leaves i s
    obtain ⟨r, -, heos, -⟩ := hl.code_flags
    exact ⟨effect i s, exec_effect i s, Nat.eq_zero_of_le_zero (havb ▸ hl.avb_le hne), fun h => heos.mpr (.inl h),
      fun hi => effect_of_outOfData hwf (outOfData_of_avb_eq_zero havb hi)⟩
  case setLim =>
    obtain ⟨hc, -⟩ := avb_eq_zero.mp havb
    refine ⟨_, exec_effect (.setLim a) s, rfl, ?_⟩
    rw [avb_aligned (s := effect (.setLim a) s) hc]
    show 0 < 8 * (min a.toNat s.len.toNat - s.pos.toNat) ↔ _
    omega

end Sys2Proof.Machine

/-! PROOFS. Family 41_raw_byte_reads: the whole rules of the three signed byte reads, and that a byte read takes all
of its bytes or fails. -/

namespace Sys2Proof.Machine

/-! ### Signed byte reads -/

/-- The model's sign extension of a bit vector's number is that of the bit vector (00_scope R13). -/
theorem sext_toNat {w : Nat} (x : BitVec w) : sext w x.toNat = x.signExtend 32 := by
  rw [sext_eq_signExtend x.isLt, BitVec.ofNat_toNat, BitVec.setWidth_eq]

/-- Settles O26: the reads of O25 with the sign extended, of which 32 bits leave nothing to extend. -/
theorem signedByteReadRules : Obligations.SignedByteReadRules := by
  refine ⟨?s8, ?s16, ?s32⟩
  case s8 =>
    refine byteReadRule_of_bytesEffect (ext := sext 8) (fun _ => rfl) (fun _ => rfl) fun s a => ?_
    rw [bytesToNat_one, sext_toNat]
  case s16 =>
    refine byteReadRule_of_bytesEffect (ext := sext 16) (fun _ => rfl) (fun _ => rfl) fun s a => ?_
    rw [bytesToNat_two, sext_toNat]
  case s32 =>
    refine byteReadRule_of_bytesEffect (ext := sext 32) (fun _ => rfl) (fun _ => rfl) fun s a => ?_
    rw [bytesToNat_four, sext_toNat, BitVec.signExtend_eq]

/-! ### All of the bytes or none -/

theorem bytesEffect_of_le {k : Nat} {s : State} (h : s.pos.toNat + k ≤ s.effEnd) (ext : Nat → Word) :
    bytesEffect k ext s = (s.afterBytes k).answered (ext (bytesToNat s s.pos.toNat k 0)) :=
  if_neg (Nat.not_lt.mpr h)

/-- From `s` to `t` all of `k` bytes were taken, or none: the failure leaves `pos` at E or beyond and `eos` set
(41_raw_byte_reads R107). -/
def TakesAllOrFails (k : Nat) (s t : State) : Prop := ∃ r, t.resp = some r ∧ t.bitcnt = 0#4
  ∧ ((r.code = .ok ∧ s.pos.toNat + k ≤ s.effEnd ∧ t.pos.toNat = s.pos.toNat + k)
    ∨ (r.code = .exh ∧ t.pos.toNat = max s.pos.toNat s.effEnd ∧ t.eos = true))

theorem bytesEffect_takesAllOrFails (k : Nat) (ext : Nat → Word) (s : State) :
    TakesAllOrFails k s (bytesEffect k ext s) := by
  obtain h | h := Nat.lt_or_ge s.effEnd (s.pos.toNat + k)
  · rw [bytesEffect_of_lt h]
    exact ⟨_, rfl, rfl, .inr ⟨rfl, exhausted_pos_toNat s, rfl⟩⟩
  · rw [bytesEffect_of_le h]
    exact ⟨_, rfl, rfl, .inl ⟨rfl, h, afterBytes_pos_toNat h⟩⟩

/-- Settles O27: the six byte reads share one shape. -/
theorem byteReadsNeverPartial : Obligations.ByteReadsNeverPartial := by
  intro s i k hi
  have heff : ∃ ext, effect i s = bytesEffect k ext s := by
    obtain ⟨rfl | rfl, rfl⟩ | ⟨rfl | rfl, rfl⟩ | ⟨rfl | rfl, rfl⟩ := hi <;> exact ⟨_, rfl⟩
  obtain ⟨ext, heff⟩ := heff
  obtain ⟨r, hr⟩ := bytesEffect_takesAllOrFails k ext s
  exact ⟨_, r, (exec_effect i s).trans (congrArg _ heff), hr⟩

end Sys2Proof.Machine

/-! PROOFS. Family 42_stream_control: the whole rules of ALIGN, SKIP, SET_LIM and GET_POS, how a segment end is
reached, who writes `esc`, and what a raised limit does on the escape path. -/

namespace Sys2Proof

/-- The word of a U-form command, written `(OP << 32) | ARG` (30_encoding R69). -/
theorem decode_or_arg {op : BitVec 8} {arg : Word} {i : Instr} (hwf : i.wf = true) (hop : i.op = op)
    (harg : i.arg = arg) : decode (op.setWidth 40 <<< 32 ||| arg.setWidth 40) = .ok i := by
  rw [← hop, ← harg, ← commandWord_eq_or]
  exact decode_encode hwf

end Sys2Proof

namespace Sys2Proof.Machine

/-! ### The four rules -/

/-- Settles O28: ALIGN clears `esc` and `bitcnt` in every state; its word is of form Z. -/
theorem alignRule : Obligations.AlignRule :=
  ⟨rfl, exec_effect .align, answersIll_of_decodeFields fun _ h => ⟨_, decodeZ_error h⟩⟩

/-- Settles O30: SET_LIM is of form U and writes one register. -/
theorem setLimRule : Obligations.SetLimRule :=
  ⟨fun _ => decode_or_arg (op := 0x12#8) rfl rfl rfl, fun s a => exec_effect (.setLim a) s⟩

/-- Settles O31: GET_POS answers a register; its word is of form Z. -/
theorem getPosRule : Obligations.GetPosRule :=
  ⟨rfl, exec_effect .getPos, answersIll_of_decodeFields fun _ h => ⟨_, decodeZ_error h⟩⟩

theorem exec_skip_of_le {n : Word} {s : State} (h : s.pos.toNat + n.toNat ≤ s.effEnd) :
    exec (.skip n) s = .next ((s.afterBytes n.toNat).answered 0#32) := by
  rw [exec_effect, effect, if_neg (Nat.not_lt.mpr h)]

theorem exec_skip_of_lt {n : Word} {s : State} (h : s.pos.toNat + n.toNat > s.effEnd) :
    exec (.skip n) s = .next s.exhausted := by
  rw [exec_effect, effect, if_pos h]

/-- Passing over as many bytes as a word says adds that word to `pos`. -/
theorem afterBytes_toNat_pos (s : State) (n : Word) : (s.afterBytes n.toNat).pos = s.pos + n :=
  rfl

/-- Settles O29: the bytes are passed over, or SKIP fails; every word of form U is one. -/
theorem skipRule : Obligations.SkipRule :=
  ⟨fun _ => decode_or_arg (op := 0x11#8) rfl rfl rfl, fun _ _ => exec_skip_of_le, fun _ _ => exec_skip_of_lt⟩

/-! ### Reaching a segment end -/

/-- SKIP by the distance to `e` ends at `e`, aligned (42_stream_control R126). -/
theorem exec_skip_to {s : State} {e : Word} (hpos : s.pos.toNat ≤ e.toNat) (he : e.toNat ≤ s.effEnd) :
    ∃ u, exec (.skip (e - s.pos)) s = .next u
      ∧ u.pos = e ∧ u.bitcnt = 0#4 ∧ u.resp = some ⟨.ok, 0#32⟩ := by
  have hdist : (e - s.pos).toNat = e.toNat - s.pos.toNat := BitVec.toNat_sub_of_le hpos
  refine ⟨_, exec_skip_of_le (by omega), ?_, rfl, rfl⟩
  calc (s.afterBytes (e - s.pos).toNat).pos
      _ = s.pos + (e - s.pos) := afterBytes_toNat_pos s _
      _ = e := by rw [BitVec.add_comm, BitVec.sub_add_cancel]

/-- Settles O33: GET_POS leaves `pos` and E to the SKIP after it; no way to end moves `pos` back. -/
theorem segmentEndReached : Obligations.SegmentEndReached := by
  refine ⟨fun s e hpos he => ?reached, fun i s t h => ?forward⟩
  case reached =>
    obtain ⟨u, hu⟩ := exec_skip_to (s := s.answered s.pos) hpos he
    exact ⟨_, u, s.pos, exec_effect .getPos s, rfl, hu⟩
  case forward => exact exec_next h ▸ (effect_leaves i s).pos_bounds.left

/-! ### Who writes `esc` -/

theorem fieldEffect_esc (n : Nat) (ext : Nat → Word) (s : State) : (fieldEffect n ext s).esc = false := by
  rw [fieldEffect]
  split <;> rfl

theorem bytesEffect_esc (k : Nat) (ext : Nat → Word) (s : State) : (bytesEffect k ext s).esc = false := by
  rw [bytesEffect]
  split <;> rfl

/-- A raw-path command clears `esc`, whether it fails or not (40_raw_bit_reads R83). -/
theorem effect_esc_of_isRawPath {i : Instr} (hraw : isRawPath i = true) (hwf : i.wf = true) (s : State) :
    (effect i s).esc = false := by
  cases i with
  | readBit => exact fieldEffect_esc ..
  | readBits n => rw [effect_readBits ((wf_readBits n).mp hwf)]; exact fieldEffect_esc ..
  | readSbits n => rw [effect_readSbits ((wf_readSbits n).mp hwf)]; exact fieldEffect_esc ..
  | readByte | readU16 | readU32 | readS8 | readS16 | readS32 => exact bytesEffect_esc ..
  | align => rfl
  | skip n => rw [effect]; split <;> rfl
  | setLim | getPos | getStatus | escStart | escBytein => cases hraw

/-- SET_LIM, GET_POS and GET_STATUS leave the escape path alone (42_stream_control R120). -/
theorem effect_escape_of_isControl {i : Instr} (hi : isControl i = true) (s : State) :
    (effect i s).esc = s.esc ∧ (effect i s).b0 = s.b0 ∧ (effect i s).b1 = s.b1 := by
  cases i with
  | setLim | getPos | getStatus => exact ⟨rfl, rfl, rfl⟩
  | _ => cases hi

theorem escStartEffect_esc (s : State) : (escStartEffect s).esc = true := by
  rw [escStartEffect]
  split
  · rfl
  · split <;> rfl

/-- No command but ESC_START sets `esc`. -/
theorem Leaves.esc_eq_false {i : Instr} {s t : State} (hl : Leaves i s t) (he : s.esc = false)
    (hstart : i ≠ .escStart) : t.esc = false := by
  cases hl with
  | exhausted | bits | bytes | aligned => rfl
  | rejected | limited | observed | fetched | filled => exact he
  | startedBoth hi | startedLast hi | startedEmpty hi => exact absurd hi hstart

/-- ESC_BYTEIN is illegal off the escape path (43_escape_path R143). -/
theorem effect_escBytein_of_not_esc {s : State} (he : s.esc = false) : effect .escBytein s = s.rejected := by
  rw [effect, escByteinEffect, if_neg (by simp [he])]

/-- Settles O35, by the kinds of commands. -/
theorem escapeFlagRules : Obligations.EscapeFlagRules :=
  ⟨fun i s hraw hwf => ⟨_, exec_effect i s, effect_esc_of_isRawPath hraw hwf s⟩,
    fun i s hi => ⟨_, exec_effect i s, effect_escape_of_isControl hi s⟩,
    fun s => ⟨_, exec_effect .escStart s, escStartEffect_esc s⟩,
    fun i s he hstart => ⟨_, exec_effect i s, (effect_leaves i s).esc_eq_false he hstart⟩,
    fun s he => (exec_effect .escBytein s).trans (congrArg _ (effect_escBytein_of_not_esc he))⟩

/-! ### A limit raised on the escape path -/

theorem effect_escBytein_fetch {s : State} (he : s.esc = true) (hm : ¬ s.atMarker = true)
    (hp : s.pos.toNat < s.effEnd) : effect .escBytein s =
      ({ s with b0 := s.b1, b1 := s.byteAt s.pos.toNat, pos := s.pos + 1#32 } : State).answered
        (escData false false (escCt s.b0) s.b1) := by
  rw [effect, escByteinEffect, if_pos he, if_neg hm, if_pos hp]

theorem effect_escBytein_fill {s : State} (he : s.esc = true) (hm : ¬ s.atMarker = true)
    (hp : s.effEnd ≤ s.pos.toNat) : effect .escBytein s =
      ({ s with b0 := s.b1, b1 := 0xFF#8, fill := true } : State).answered
        (escData true false (escCt s.b0) s.b1) := by
  rw [effect, escByteinEffect, if_pos he, if_neg hm, if_neg (Nat.not_lt.mpr hp)]

/-- Two bytes 0xFF are a marker, which ESC_BYTEIN answers as 0x000018FF (43_escape_path R144). -/
theorem effect_escBytein_of_fills {s : State} (he : s.esc = true) (hb0 : s.b0 = 0xFF#8) (hb1 : s.b1 = 0xFF#8) :
    effect .escBytein s = { s with resp := some ⟨.ok, 0x000018FF#32⟩ } :=
  effect_escBytein_marker he ((State.atMarker_iff s).mpr ⟨hb0, by rw [hb1]; decide⟩)

/-- With 0xFF in `b1`, ESC_BYTEIN comes to the marker of two bytes 0xFF, or stays there, if it stands there or
nothing is readable (43_escape_path R145). -/
theorem effect_escBytein_reaches_marker {s : State} (he : s.esc = true) (hb1 : s.b1 = 0xFF#8)
    (h : s.b0 = 0xFF#8 ∨ s.effEnd ≤ s.pos.toNat) :
    (effect .escBytein s).b0 = 0xFF#8 ∧ (effect .escBytein s).b1 = 0xFF#8
      ∧ (effect .escBytein s).esc = true ∧ (effect .escBytein s).pos = s.pos := by
  by_cases hb0 : s.b0 = 0xFF#8
  · rw [effect_escBytein_of_fills he hb0 hb1]
    exact ⟨hb0, hb1, he, rfl⟩
  · have hm : ¬ s.atMarker = true := fun hm => hb0 ((State.atMarker_iff s).mp hm).left
    rw [effect_escBytein_fill he hm (h.resolve_left hb0)]
    exact ⟨hb1, rfl, he, rfl⟩

/-- Settles O54: what the two ESC_BYTEINs do is decided by `b0`, `pos` and the new E alone. -/
theorem raisedLimitAfterFill : Obligations.RaisedLimitAfterFill := by
  intro s a he
  refine ⟨_, _, _, exec_effect (.setLim a) s, rfl, rfl, rfl, rfl, he, exec_effect .escBytein _,
    exec_effect .escBytein _, fun hb1 => ?_⟩
  split
  case isTrue h =>
    obtain ⟨hu0, hu1, hue, hup⟩ := effect_escBytein_reaches_marker (s := effect (.setLim a) s) he hb1 h
    exact ⟨hu0, hu1, hue, hup, effect_escBytein_of_fills hue hu0 hu1⟩
  case isFalse h =>
    obtain ⟨hb0, hE⟩ := not_or.mp h
    have hm : ¬ (effect (.setLim a) s).atMarker = true := fun hm => hb0 ((State.atMarker_iff _).mp hm).left
    rw [effect_escBytein_fetch (s := effect (.setLim a) s) he hm (Nat.lt_of_not_le hE)]
    exact ⟨hb1, rfl, he, rfl⟩

end Sys2Proof.Machine

/-! PROOFS. Family 43_escape_path: the whole rules of ESC_START and ESC_BYTEIN, what a marker and the end of data do
to them, the order in which they deliver the stream, and that the raw path destuffs nothing. -/

namespace Sys2Proof.Machine

/-! ### The two rules -/

theorem effect_escStart_of_two {s : State} (h : s.pos.toNat + 2 ≤ s.effEnd) : effect .escStart s =
    ({ s with
        bitcnt := 0#4, b0 := s.byteAt s.pos.toNat, b1 := s.byteAt (s.pos.toNat + 1)
        pos := s.pos + 2#32, esc := true } : State).answered
      (escData false false 8#4 (s.byteAt s.pos.toNat)) := if_pos h

theorem effect_escStart_of_one {s : State} (h : s.pos.toNat + 1 = s.effEnd) : effect .escStart s =
    ({ s with
        bitcnt := 0#4, b0 := s.byteAt s.pos.toNat, b1 := 0xFF#8
        pos := s.pos + 1#32, fill := true, esc := true } : State).answered
      (escData true false 8#4 (s.byteAt s.pos.toNat)) := by
  rw [effect, escStartEffect, if_neg (by omega), if_pos h]

theorem effect_escStart_of_none {s : State} (h : s.effEnd ≤ s.pos.toNat) : effect .escStart s =
    ({ s with
        bitcnt := 0#4, b0 := 0xFF#8, b1 := 0xFF#8, fill := true, esc := true } : State).answered
      (escData true false 8#4 0xFF#8) := by
  rw [effect, escStartEffect, if_neg (by omega), if_neg (by omega)]

theorem exec_of_effect {i : Instr} {s t : State} (h : effect i s = t) : exec i s = .next t :=
  h ▸ exec_effect i s

/-- Settles O36, by how many bytes are readable. -/
theorem escStartRule : Obligations.EscStartRule :=
  ⟨rfl, fun _ h => exec_of_effect (effect_escStart_of_two h),
    fun _ h => exec_of_effect (effect_escStart_of_one h),
    fun _ h => exec_of_effect (effect_escStart_of_none h),
    answersIll_of_decodeFields fun _ h => ⟨_, decodeZ_error h⟩⟩

/-- Settles O37, by `esc`, the marker test and whether a byte is readable. -/
theorem escByteinRule : Obligations.EscByteinRule := by
  refine ⟨rfl, fun s he hb0 hb1 => ?marker, fun s he hm hp => ?fetch, fun s he hm hp => ?fill,
    fun s he => ?off, ?illegal⟩
  case marker => exact exec_of_effect (effect_escBytein_marker he ((State.atMarker_iff s).mpr ⟨hb0, hb1⟩))
  case fetch => exact exec_of_effect (effect_escBytein_fetch he (mt (State.atMarker_iff s).mp hm) hp)
  case fill => exact exec_of_effect (effect_escBytein_fill he (mt (State.atMarker_iff s).mp hm) hp)
  case off => exact exec_of_effect (effect_escBytein_of_not_esc he)
  case illegal => exact answersIll_of_decodeFields fun _ h => ⟨_, decodeZ_error h⟩

/-- Settles O40: the first ESC_BYTEIN comes to two bytes 0xFF, which the second answers as a marker. -/
theorem endOfDataBecomesMarker : Obligations.EndOfDataBecomesMarker := by
  intro s he hb1 hp
  obtain ⟨ht0, ht1, hte, htp⟩ := effect_escBytein_reaches_marker he hb1 (.inr hp)
  exact ⟨_, exec_effect .escBytein s, hte, ht0, ht1, htp,
    exec_of_effect (effect_escBytein_of_fills hte ht0 ht1)⟩

/-! ### Runs of ESC_BYTEINs

What is still presented does not matter to ESC_BYTEIN, so a run of `k` of them is its effect `k` times over. -/

/-- The state that `k` commands `i` leave, one after another. -/
def repeatEffect (i : Instr) : Nat → State → State
  | 0, t => t
  | k + 1, t => effect i (repeatEffect i k t)

theorem repeatEffect_succ (i : Instr) (k : Nat) (t : State) :
    repeatEffect i (k + 1) t = effect i (repeatEffect i k t) := rfl

/-- The first of the commands taken apart instead of the last. -/
theorem repeatEffect_succ_first (i : Instr) (k : Nat) (t : State) :
    repeatEffect i (k + 1) t = repeatEffect i k (effect i t) := by
  induction k with
  | zero => rfl
  | succ k ih => rw [repeatEffect_succ, ih, ← repeatEffect_succ]

theorem repeatEffect_inbox (i : Instr) (k : Nat) (t : State) : (repeatEffect i k t).inbox = t.inbox := by
  induction k with
  | zero => rfl
  | succ k ih => rw [repeatEffect_succ, (effect_leaves ..).inbox, ih]

/-- A presented word that decodes leaves the effect of its command. -/
theorem step_of_decode {s : State} {w : CmdWord} {rest : List Input} {i : Instr}
    (hbox : s.inbox = .command w :: rest) (hdec : decode w = .ok i) :
    step s = .next (effect i { s with inbox := rest }) := by
  rw [step_command hbox, runWord_ok hdec, exec_effect]

theorem effect_escBytein_with_inbox (s : State) (rest : List Input) :
    effect .escBytein { s with inbox := rest } = { effect .escBytein s with inbox := rest } := by
  have hm : ({ s with inbox := rest } : State).atMarker = s.atMarker := rfl
  have hE : ({ s with inbox := rest } : State).effEnd = s.effEnd := rfl
  rw [effect, effect, escByteinEffect, escByteinEffect, hm, hE]
  by_cases he : s.esc = true
  · rw [if_pos he, if_pos he]
    split
    · rfl
    · split <;> rfl
  · rw [if_neg he, if_neg he]; rfl

theorem runFor_escByteins {k : Nat} {rest : List Input} : ∀ {s : State},
    s.inbox = List.replicate k (.command 0x2100000000#40) ++ rest →
    runFor k s = .next (repeatEffect .escBytein k { s with inbox := rest }) := by
  induction k with
  | zero => rintro s (rfl : s.inbox = rest); rfl
  | succ k ih =>
    intro s hbox
    have hhead : s.inbox = .command 0x2100000000#40
        :: (List.replicate k (.command 0x2100000000#40) ++ rest) := hbox
    rw [runFor_next (step_of_decode hhead rfl), ih (effect_leaves ..).inbox, repeatEffect_succ_first,
      ← effect_escBytein_with_inbox]

/-! ### Markers -/

/-- The second ESC_BYTEIN at a marker leaves the state as the first did. -/
theorem repeatEffect_escBytein_marker {s : State} (he : s.esc = true) (hm : s.atMarker = true) (k : Nat) :
    repeatEffect .escBytein (k + 1) s = s.answered 0x000018FF#32 := by
  have hfirst : effect .escBytein s = s.answered 0x000018FF#32 := effect_escBytein_marker he hm
  have hagain : effect .escBytein (s.answered 0x000018FF#32) = s.answered 0x000018FF#32 :=
    effect_escBytein_marker (s := s.answered 0x000018FF#32) he hm
  induction k with
  | zero => exact hfirst
  | succ k ih => rw [repeatEffect_succ, ih, hagain]

/-- A term that is no command is answered ILL (60_exceptions R162). -/
theorem effect_of_not_wf {i : Instr} (h : i.wf = false) (s : State) : effect i s = s.rejected := by
  cases i with
  | readBits n => exact if_neg fun hn => by simp [(wf_readBits n).mpr hn] at h
  | readSbits n => exact if_neg fun hn => by simp [(wf_readSbits n).mpr hn] at h
  | _ => cases h

/-- At a marker only a raw-path command and ESC_START write `esc`, `b0` or `b1` (43_escape_path R144). -/
theorem Leaves.keeps_marker {i : Instr} {s t : State} (hl : Leaves i s t) (hraw : isRawPath i = false)
    (hstart : i ≠ .escStart) (hm : s.atMarker = true) : t.esc = s.esc ∧ t.b0 = s.b0 ∧ t.b1 = s.b1 := by
  cases hl with
  | exhausted h | bits h | bytes h | aligned h => rw [hraw] at h; cases h
  | startedBoth h | startedLast h | startedEmpty h => exact absurd h hstart
  | fetched _ _ h | filled _ _ h => exact absurd hm h
  | rejected | limited | observed => exact ⟨rfl, rfl, rfl⟩

/-- Settles O39: a run of ESC_BYTEINs is one of them, and no other command but those named ends the marker. -/
theorem markerIsStable : Obligations.MarkerIsStable := by
  intro s he hb0 hb1
  have hm : s.atMarker = true := (State.atMarker_iff s).mpr ⟨hb0, hb1⟩
  refine ⟨fun k rest hbox => ?run, fun i hi hstart => ⟨_, exec_effect i s, ?kept⟩⟩
  case run =>
    rw [runFor_escByteins hbox]
    exact congrArg _ (repeatEffect_escBytein_marker (s := { s with inbox := rest }) he hm k)
  case kept =>
    obtain hraw | hwf := hi
    · obtain ⟨hte, ht0, ht1⟩ := (effect_leaves i s).keeps_marker hraw hstart hm
      exact ⟨hte.trans he, ht0.trans hb0, ht1⟩
    · rw [effect_of_not_wf hwf]
      exact ⟨he, hb0, rfl⟩

/-! ### The order of delivery -/

/-- `t` is on the escape path of `s`'s stream: its last answer was the byte `k` places after `pos` of `s`, with CT 7
if that byte follows a 0xFF on the path, the byte after it is in the lookahead, and no fill byte was supplied. -/
structure Delivered (s : State) (k : Nat) (t : State) : Prop where
  esc : t.esc = true
  b0 : t.b0 = s.byteAt (s.pos.toNat + k)
  b1 : t.b1 = s.byteAt (s.pos.toNat + k + 1)
  pos : t.pos.toNat = s.pos.toNat + k + 2
  fill : t.fill = s.fill
  mem : t.mem = s.mem
  effEnd : t.effEnd = s.effEnd
  resp : t.resp = some ⟨.ok, escData false false
    (if 0 < k ∧ s.byteAt (s.pos.toNat + k - 1) = 0xFF#8 then 7#4 else 8#4) (s.byteAt (s.pos.toNat + k))⟩

/-- ESC_START delivers the byte at `pos` (43_escape_path R142). -/
theorem delivered_escStart {s : State} (h : s.pos.toNat + 2 ≤ s.effEnd) :
    Delivered s 0 (effect .escStart s) := by
  rw [effect_escStart_of_two h]
  exact ⟨rfl, rfl, rfl, pos_add_two h, rfl, rfl, rfl, rfl⟩

/-- ESC_BYTEIN off a marker delivers the next byte (43_escape_path R143). -/
theorem Delivered.escBytein {s t : State} {k : Nat} (h : Delivered s k t)
    (hp : s.pos.toNat + (k + 1) + 2 ≤ s.effEnd)
    (hm : s.byteAt (s.pos.toNat + k) = 0xFF#8 → s.byteAt (s.pos.toNat + k + 1) ≤ 0x8F#8) :
    Delivered s (k + 1) (effect .escBytein t) := by
  have hread : t.pos.toNat < t.effEnd := by rw [h.pos, h.effEnd]; omega
  have hoff : ¬ t.atMarker = true := by
    rw [State.atMarker_iff, h.b0, h.b1]
    exact fun ⟨hff, hgt⟩ => absurd (hm hff) (BitVec.not_le.mpr hgt)
  have hnext : t.byteAt t.pos.toNat = s.byteAt (s.pos.toNat + (k + 1) + 1) := by
    rw [h.pos]; exact congrArg (Memory.read · _) h.mem
  rw [effect_escBytein_fetch h.esc hoff hread]
  refine ⟨h.esc, h.b1, hnext, (pos_succ hread).trans (by rw [h.pos]; omega), h.fill, h.mem, h.effEnd, ?_⟩
  simp [h.b0, h.b1, escCt, Nat.add_assoc]

/-- `k` ESC_BYTEINs before any marker and before the end deliver `k` more bytes. -/
theorem Delivered.escByteins {s t : State} (h : Delivered s 0 t) : ∀ {k : Nat},
    s.pos.toNat + k + 2 ≤ s.effEnd →
    (∀ j, j < k → s.byteAt (s.pos.toNat + j) = 0xFF#8 → s.byteAt (s.pos.toNat + j + 1) ≤ 0x8F#8) →
    Delivered s k (repeatEffect .escBytein k t)
  | 0, _, _ => h
  | k + 1, hp, hm => by
    rw [repeatEffect_succ]
    exact (h.escByteins (by omega) fun j hj => hm j (by omega)).escBytein hp (hm k (by omega))

theorem Delivered.with_inbox {s t : State} {k : Nat} (h : Delivered s k t) (rest : List Input) :
    Delivered s k { t with inbox := rest } := { h with }

/-- Settles O41: ESC_START delivers the first byte, and each ESC_BYTEIN the next. -/
theorem escapePathDeliversStream : Obligations.EscapePathDeliversStream := by
  intro s k rest hbox hp hm
  have htwo : s.pos.toNat + 2 ≤ s.effEnd := by omega
  have hstart := delivered_escStart (s := { s with inbox := List.replicate k (.command 0x2100000000#40) ++ rest }) htwo
  have hend := (hstart.with_inbox rest).escByteins hp hm
  have hrun := (runFor_next (step_of_decode hbox rfl)).trans (runFor_escByteins (effect_leaves ..).inbox)
  exact ⟨_, hrun, hend.b0, hend.b1, hend.pos, hend.esc, hend.fill, repeatEffect_inbox .., hend.resp⟩

/-! ### The raw path takes the stream as it is -/

/-- `t` answers OK with the first `n` bits of `queue` in the low bits of RDATA, and the others are left to be
read. -/
def TakesFront (queue : List Bool) (n : Nat) (t : State) : Prop := ∃ v, t.resp = some ⟨.ok, v⟩
  ∧ t.rawBits = queue.drop n ∧ v.toNat % 2 ^ n = bitsToNat (queue.take n)

/-- The extension of a field of `n` bits to 32 keeps the field in the low bits. -/
def KeepsField (n : Nat) (ext : Nat → Word) : Prop := ∀ v, v < 2 ^ n → (ext v).toNat % 2 ^ n = v

theorem zext32_keepsField {n : Nat} (hn : n ≤ 32) : KeepsField n zext32 := by
  intro v hv
  rw [zext32, BitVec.toNat_ofNat, Nat.mod_mod_of_dvd _ (Nat.pow_dvd_pow 2 hn), Nat.mod_eq_of_lt hv]

/-- The bits below the extension are those of the field. -/
theorem setWidth_signExtend_of_le {n m : Nat} (hn : n ≤ m) (x : BitVec n) :
    (x.signExtend m).setWidth n = x := by
  apply BitVec.eq_of_getLsbD_eq
  intro k hk
  rw [BitVec.getLsbD_setWidth, BitVec.getLsbD_signExtend, if_pos hk]
  simp [hk, Nat.lt_of_lt_of_le hk hn]

theorem sext_keepsField {n : Nat} (hn : n ≤ 32) : KeepsField n (sext n) := by
  intro v hv
  rw [sext_eq_signExtend hv, ← BitVec.toNat_setWidth, setWidth_signExtend_of_le hn, BitVec.toNat_ofNat,
    Nat.mod_eq_of_lt hv]

theorem fieldEffect_takesFront {n : Nat} {ext : Nat → Word} {s : State} (h : n ≤ s.avb)
    (hext : KeepsField n ext) : TakesFront s.rawBits n (fieldEffect n ext s) := by
  rw [fieldEffect_of_le h]
  exact ⟨_, rfl, afterBits_rawBits h, hext _ (bitsToNat_take_lt _ _)⟩

theorem streamBits_add (s : State) (a k m : Nat) :
    s.streamBits a (k + m) = s.streamBits a k ++ s.streamBits (a + k) m := by
  rw [State.streamBits, ← List.range'_append_1, List.flatMap_append]; rfl

/-- Passing over `k` bytes drops all eight bits of each from the queue. -/
theorem afterBytes_rawBits {k : Nat} {s : State} (h : s.pos.toNat + k ≤ s.effEnd) :
    (s.afterBytes k).rawBits = (s.streamBits s.pos.toNat (s.effEnd - s.pos.toNat)).drop (8 * k) := by
  have hsplit : s.effEnd - s.pos.toNat = k + (s.effEnd - (s.pos.toNat + k)) := by omega
  rw [hsplit, streamBits_add, List.drop_left' (streamBits_length ..), ← afterBytes_pos_toNat h]
  rfl

theorem bytesEffect_takesFront {k : Nat} {ext : Nat → Word} {s : State} (h : s.pos.toNat + k ≤ s.effEnd)
    (hext : KeepsField (8 * k) ext) :
    TakesFront (s.streamBits s.pos.toNat (s.effEnd - s.pos.toNat)) (8 * k) (bytesEffect k ext s) := by
  have hval : bytesToNat s s.pos.toNat k 0
      = bitsToNat ((s.streamBits s.pos.toNat (s.effEnd - s.pos.toNat)).take (8 * k)) := by
    rw [streamBits_take s (by omega), bytesToNat_eq_bitsToNat, Nat.zero_mul, Nat.zero_add]
  rw [bytesEffect_of_le h, hval]
  exact ⟨_, rfl, afterBytes_rawBits h, hext _ (bitsToNat_take_lt _ _)⟩

/-- A raw-path command but SKIP answers the front of its queue. -/
theorem effect_takesFront {i : Instr} {s : State} (hraw : isRawPath i = true) (hwf : i.wf = true)
    (hdata : ¬ OutOfData i s) (hskip : ∀ n, i ≠ .skip n) :
    TakesFront (s.rawQueue i) (rawWidth i) (effect i s) := by
  cases i with
  | readBit => exact fieldEffect_takesFront (Nat.not_lt.mp hdata) (zext32_keepsField (n := 1) (by omega))
  | readBits n =>
    have hn := (wf_readBits n).mp hwf
    rw [effect_readBits hn]
    exact fieldEffect_takesFront (Nat.not_lt.mp hdata) (zext32_keepsField hn)
  | readSbits n =>
    have hn := (wf_readSbits n).mp hwf
    rw [effect_readSbits hn]
    exact fieldEffect_takesFront (Nat.not_lt.mp hdata) (sext_keepsField hn.right)
  | readByte | readU16 | readU32 =>
    exact bytesEffect_takesFront (Nat.not_lt.mp hdata) (zext32_keepsField (by omega))
  | readS8 => exact bytesEffect_takesFront (Nat.not_lt.mp hdata) (sext_keepsField (n := 8) (by omega))
  | readS16 => exact bytesEffect_takesFront (Nat.not_lt.mp hdata) (sext_keepsField (n := 16) (by omega))
  | readS32 => exact bytesEffect_takesFront (Nat.not_lt.mp hdata) (sext_keepsField (n := 32) (by omega))
  | align => exact ⟨0#32, rfl, rfl, rfl⟩
  | skip n => exact absurd rfl (hskip n)
  | setLim | getPos | getStatus | escStart | escBytein => cases hraw

/-- Settles O42: every command takes the front of its queue, SKIP without showing it. -/
theorem rawPathNeverDestuffs : Obligations.RawPathNeverDestuffs := by
  refine ⟨fun i s hraw hwf hdata => ?front, fun s h => ?bytes⟩
  case front =>
    by_cases hskip : ∃ n, i = .skip n
    · obtain ⟨n, rfl⟩ := hskip
      exact ⟨_, 0#32, exec_skip_of_le (Nat.not_lt.mp hdata), rfl, afterBytes_rawBits (Nat.not_lt.mp hdata),
        fun h => absurd rfl (h n)⟩
    · obtain ⟨v, hresp, hrest, hval⟩ := effect_takesFront hraw hwf hdata (not_exists.mp hskip)
      exact ⟨_, v, exec_effect i s, hresp, hrest, fun _ => hval⟩
  case bytes =>
    obtain ⟨⟨-, hread, -, -⟩, -, -⟩ := unsignedByteReadRules
    have hpos := afterBytes_pos_toNat (s := s) (k := 1) (by omega)
    refine ⟨_, _, hread s (by omega), hread _ ?_, rfl, ?_⟩
    · rw [State.answered_pos, hpos]; exact h
    · rw [State.answered_resp, State.answered_pos, hpos]; rfl

end Sys2Proof.Machine

/-! PROOFS. Family 60_exceptions: which words are answered ILL and what that leaves, and which commands are answered
EXH. -/

namespace Sys2Proof

/-! ### Which words are illegal

`exists_decode_error_iff` says that the conditions of 60_exceptions R162 on the word alone are those under which it
decodes to no command; the one that reads `esc` is ESC_BYTEIN's (`illegalWord_iff`). -/

/-- The count and the reserved bits of an N-form word are those of its ARG (30_encoding R62). -/
theorem argField_count (w : CmdWord) : (argField w).extractLsb' 0 6 = w.extractLsb' 0 6 := by
  ext k hk; simp [argField]

theorem argField_reserved (w : CmdWord) : (argField w).extractLsb' 6 26 = w.extractLsb' 6 26 := by
  ext k hk; simp [argField]

/-- The listed opcodes by the form of their ARG (30_encoding R63). -/
theorem mem_opcodes_iff {op : BitVec 8} : op ∈ Machine.opcodes ↔
    op ∈ Machine.zOpcodes ∨ op = 0x02#8 ∨ op = 0x03#8 ∨ op = 0x11#8 ∨ op = 0x12#8 := by
  simp [Machine.opcodes]

theorem decodeFields_of_mem_zOpcodes {op : BitVec 8} (h : op ∈ Machine.zOpcodes) (arg : Word) :
    ∃ i, decodeFields op.toNat arg = decodeZ i arg := by
  simp only [Machine.zOpcodes, List.mem_cons, List.not_mem_nil, or_false] at h
  obtain rfl | rfl | rfl | rfl | rfl | rfl | rfl | rfl | rfl | rfl | rfl | rfl := h <;> exact ⟨_, rfl⟩

theorem decode_of_opField {w : CmdWord} {op : BitVec 8} (h : opField w = op) :
    decode w = decodeFields op.toNat (argField w) := by
  rw [decode, h]

/-- Form Z rejects every ARG but 0. -/
theorem exists_decodeZ_error_iff {i : Instr} {arg : Word} : (∃ r, decodeZ i arg = .error r) ↔ arg ≠ 0#32 := by
  constructor
  · rintro ⟨r, hr⟩ rfl
    cases hr
  · exact fun h => ⟨_, Machine.decodeZ_error h⟩

/-- Form N rejects an ARG for its reserved bits or for its count. -/
theorem exists_decodeN_error_iff {lo : Nat} {mk : BitVec 6 → Instr} {w : CmdWord} :
    (∃ r, decodeN lo mk (argField w) = .error r) ↔ w.extractLsb' 6 26 ≠ 0#26
      ∨ (w.extractLsb' 0 6).toNat < lo ∨ 32 < (w.extractLsb' 0 6).toNat := by
  rw [← argField_count, ← argField_reserved]
  refine ⟨fun ⟨r, hr⟩ => ?_, decodeN_error⟩
  by_cases hzero : (argField w).extractLsb' 6 26 = 0#26
  · by_cases hcount : lo ≤ ((argField w).extractLsb' 0 6).toNat ∧ ((argField w).extractLsb' 0 6).toNat ≤ 32
    · cases (decodeN_ok.mpr ⟨hzero, hcount, rfl⟩).symm.trans hr
    · omega
  · exact .inl hzero

theorem exists_decode_error_iff_of_mem_zOpcodes {w : CmdWord} (hop : opField w ∈ Machine.zOpcodes) :
    (∃ r, decode w = .error r) ↔ argField w ≠ 0#32 := by
  obtain ⟨i, hi⟩ := decodeFields_of_mem_zOpcodes hop (argField w)
  rw [decode, hi, exists_decodeZ_error_iff]

theorem exists_decode_error_iff_of_count {w : CmdWord} {op : BitVec 8} {lo : Nat} {mk : BitVec 6 → Instr}
    (hop : opField w = op) (hrow : ∀ arg, decodeFields op.toNat arg = decodeN lo mk arg) :
    (∃ r, decode w = .error r) ↔ w.extractLsb' 6 26 ≠ 0#26
      ∨ (w.extractLsb' 0 6).toNat < lo ∨ 32 < (w.extractLsb' 0 6).toNat := by
  rw [decode_of_opField hop, hrow, exists_decodeN_error_iff]

/-- A word decodes to no command exactly by the conditions of R162 that read the word alone. -/
theorem exists_decode_error_iff {w : CmdWord} :
    (∃ r, decode w = .error r) ↔ Machine.IllegalWord w true := by
  have hz := exists_decode_error_iff_of_mem_zOpcodes (w := w)
  have hreadBits (hop : opField w = 0x02#8) :=
    exists_decode_error_iff_of_count (mk := .readBits) hop fun _ => rfl
  have hreadSbits (hop : opField w = 0x03#8) :=
    exists_decode_error_iff_of_count (mk := .readSbits) hop fun _ => rfl
  constructor
  · intro herr
    by_cases hop : opField w ∈ Machine.opcodes
    · obtain hop | hop | hop | hop | hop := mem_opcodes_iff.mp hop
      · exact .inr (.inl ⟨hop, (hz hop).mp herr⟩)
      · obtain hres | hlow | hhigh := (hreadBits hop).mp herr
        · exact .inr (.inr (.inl ⟨.inl hop, hres⟩))
        · omega
        · exact .inr (.inr (.inr (.inl ⟨hop, hhigh⟩)))
      · obtain hres | hlow | hhigh := (hreadSbits hop).mp herr
        · exact .inr (.inr (.inl ⟨.inr hop, hres⟩))
        · exact .inr (.inr (.inr (.inr (.inl ⟨hop, .inl (by omega)⟩))))
        · exact .inr (.inr (.inr (.inr (.inl ⟨hop, .inr hhigh⟩))))
      all_goals
        obtain ⟨r, hr⟩ := herr
        rw [decode_of_opField hop] at hr
        cases hr
    · exact .inl hop
  · rintro (hop | ⟨hop, harg⟩ | ⟨hop | hop, hres⟩ | ⟨hop, hn⟩ | ⟨hop, hn⟩ | ⟨-, hesc⟩)
    · exact decode_error_of_opcode hop
    · exact (hz hop).mpr harg
    · exact (hreadBits hop).mpr (.inl hres)
    · exact (hreadSbits hop).mpr (.inl hres)
    · exact (hreadBits hop).mpr (.inr (.inr hn))
    · exact (hreadSbits hop).mpr (.inr (hn.imp_left (by omega)))
    · cases hesc

end Sys2Proof

namespace Sys2Proof.Machine

theorem illegalWord_iff_or_esc {w : CmdWord} {esc : Bool} :
    IllegalWord w esc ↔ IllegalWord w true ∨ (opField w = 0x21#8 ∧ esc = false) := by
  simp only [IllegalWord, opField, or_assoc, reduceCtorEq, and_false, false_or]

/-- A word is illegal when it decodes to no command, or to ESC_BYTEIN off the escape path (R162). -/
theorem illegalWord_iff {w : CmdWord} {esc : Bool} : IllegalWord w esc ↔
    (∃ r, decode w = .error r) ∨ (decode w = .ok .escBytein ∧ esc = false) := by
  rw [illegalWord_iff_or_esc, ← exists_decode_error_iff]
  constructor
  · rintro (herr | ⟨hop, hesc⟩)
    · exact .inl herr
    · cases hdec : decode w with
      | error r => exact .inl ⟨r, rfl⟩
      | ok i =>
        obtain ⟨-, rfl⟩ := decodeZ_ok.mp ((decode_of_opField hop).symm.trans hdec)
        exact .inr ⟨rfl, hesc⟩
  · rintro (herr | ⟨hdec, hesc⟩)
    · exact .inl herr
    · obtain ⟨-, rfl⟩ := decode_eq_ok_iff.mp hdec
      exact .inr ⟨rfl, hesc⟩

/-! ### What a command answers -/

theorem fieldEffect_resp_ok {n : Nat} {s : State} (h : ¬ s.avb < n) (ext : Nat → Word) :
    ∃ v, (fieldEffect n ext s).resp = some ⟨.ok, v⟩ :=
  fieldEffect_of_le (Nat.not_lt.mp h) ext ▸ ⟨_, rfl⟩

theorem bytesEffect_resp_ok {k : Nat} {s : State} (h : ¬ s.pos.toNat + k > s.effEnd) (ext : Nat → Word) :
    ∃ v, (bytesEffect k ext s).resp = some ⟨.ok, v⟩ :=
  bytesEffect_of_le (Nat.not_lt.mp h) ext ▸ ⟨_, rfl⟩

/-- ESC_START never fails: past the end it takes fill bytes (43_escape_path R142). -/
theorem escStartEffect_resp_ok (s : State) : ∃ v, (escStartEffect s).resp = some ⟨.ok, v⟩ := by
  rw [escStartEffect]
  split
  · exact ⟨_, rfl⟩
  · split <;> exact ⟨_, rfl⟩

theorem escByteinEffect_resp_ok {s : State} (he : s.esc = true) :
    ∃ v, (escByteinEffect s).resp = some ⟨.ok, v⟩ := by
  rw [escByteinEffect, if_pos he]
  split
  · exact ⟨_, rfl⟩
  · split <;> exact ⟨_, rfl⟩

/-- A command is answered EXH when out of data, ILL when it is ESC_BYTEIN off the escape path, and OK otherwise
(60_exceptions R160 to R162). -/
theorem effect_answer {i : Instr} (hwf : i.wf = true) (s : State) :
    (OutOfData i s ∧ effect i s = s.exhausted)
      ∨ ((i = .escBytein ∧ s.esc = false) ∧ effect i s = s.rejected)
      ∨ ∃ v, (effect i s).resp = some ⟨.ok, v⟩ := by
  by_cases hdata : OutOfData i s
  · exact .inl ⟨hdata, effect_of_outOfData hwf hdata⟩
  · right
    cases i with
    | readBit => exact .inr (fieldEffect_resp_ok hdata _)
    | readBits n => exact .inr (effect_readBits ((wf_readBits n).mp hwf) s ▸ fieldEffect_resp_ok hdata _)
    | readSbits n => exact .inr (effect_readSbits ((wf_readSbits n).mp hwf) s ▸ fieldEffect_resp_ok hdata _)
    | readByte | readU16 | readU32 | readS8 | readS16 | readS32 => exact .inr (bytesEffect_resp_ok hdata _)
    | skip n => exact .inr (exec_next (exec_skip_of_le (Nat.not_lt.mp hdata)) ▸ ⟨_, rfl⟩)
    | align | setLim | getPos | getStatus => exact .inr ⟨_, rfl⟩
    | escStart => exact .inr (escStartEffect_resp_ok s)
    | escBytein =>
      obtain he | he := Bool.eq_false_or_eq_true s.esc
      · exact .inr (escByteinEffect_resp_ok he)
      · exact .inl ⟨⟨rfl, he⟩, effect_escBytein_of_not_esc he⟩

theorem outOfData_of_resp_exh {i : Instr} {s : State} {d : Word} (hwf : i.wf = true)
    (h : (effect i s).resp = some ⟨.exh, d⟩) : OutOfData i s := by
  obtain ⟨hdata, -⟩ | ⟨-, heff⟩ | ⟨v, hok⟩ := effect_answer hwf s
  · exact hdata
  · rw [heff] at h; cases h
  · rw [hok] at h; cases h

theorem eq_escBytein_of_resp_ill {i : Instr} {s : State} {d : Word} (hwf : i.wf = true)
    (h : (effect i s).resp = some ⟨.ill, d⟩) : i = .escBytein ∧ s.esc = false := by
  obtain ⟨-, heff⟩ | ⟨hi, -⟩ | ⟨v, hok⟩ := effect_answer hwf s
  · rw [heff] at h; cases h
  · exact hi
  · rw [hok] at h; cases h

/-- Settles O13: such a word decodes to no command, or to ESC_BYTEIN off the escape path. -/
theorem illegalWordOnlySetsIll : Obligations.IllegalWordOnlySetsIll := by
  intro s w rest hbox hill
  obtain ⟨r, hr⟩ | ⟨hdec, hesc⟩ := illegalWord_iff.mp hill
  · rw [step_command hbox]
    exact runWord_error hr _
  · rw [step_of_decode hbox hdec]
    exact congrArg _ (effect_escBytein_of_not_esc hesc)

/-- Settles O14: a word that decodes is answered ILL only as ESC_BYTEIN off the escape path. -/
theorem illOnlyForIllegalWords : Obligations.IllOnlyForIllegalWords := by
  intro s w rest t d hbox hstep hresp
  rw [illegalWord_iff]
  cases hdec : decode w with
  | error r => exact .inl ⟨r, rfl⟩
  | ok i =>
    obtain ⟨hwf, -⟩ := decode_eq_ok_iff.mp hdec
    rw [step_of_decode hbox hdec] at hstep
    cases hstep
    obtain ⟨rfl, hesc⟩ := eq_escBytein_of_resp_ill hwf hresp
    exact .inr ⟨rfl, hesc⟩

/-- Settles O16, by the three answers of `effect_answer`. -/
theorem exhExactlyWhenOutOfData : Obligations.ExhExactlyWhenOutOfData := by
  refine fun i s hwf => ⟨fun hdata => ?_, fun t d hexec hresp => ?_⟩
  · rw [exec_effect, effect_of_outOfData hwf hdata]
  · rw [exec_next hexec] at hresp
    exact outOfData_of_resp_exh hwf hresp

end Sys2Proof.Machine

/-! PROOFS. Family 70_reset_and_hazards: what the host's reset and its binding of a stream leave, and where reading
begins after them. -/

namespace Sys2Proof.Machine

/-! ### Reset -/

/-- Reset takes the software limit away, so E is LEN (10_state R25, R32). -/
@[simp] theorem State.resetRegs_effEnd (s : State) : s.resetRegs.effEnd = s.len.toNat :=
  Nat.min_eq_right (Nat.le_pred_of_lt s.len.isLt)

@[simp] theorem State.resetRegs_byteAt (s : State) (a : Nat) : s.resetRegs.byteAt a = s.byteAt a := rfl

/-- Settles O8: `resetRegs` writes the registers and the response, and nothing else. -/
theorem resetInputRestoresRegisters : Obligations.ResetInputRestoresRegisters := fun _ _ => step_reset

/-! ### Binding -/

theorem State.bindStream_len_toNat {bytes : List Byte} (h : bytes.length < 2 ^ 32) (s : State) :
    (s.bindStream bytes).len.toNat = bytes.length := Nat.mod_eq_of_lt h

theorem State.bindStream_byteAt (s : State) {bytes : List Byte} {a : Nat} (h : a < bytes.length) :
    (s.bindStream bytes).byteAt a = bytes[a] := by
  rw [State.byteAt, State.bindStream_mem, Memory.ofBytes_read (Nat.zero_le a), Nat.sub_zero]
  exact (List.getElem_eq_getD _).symm

theorem State.bindStream_mem_wf {bytes : List Byte} (h : bytes.length < 2 ^ 32) (s : State) :
    (s.bindStream bytes).mem.wf (s.bindStream bytes).len.toNat = true := by
  rw [State.bindStream_len_toNat h]; exact Memory.ofBytes_wf bytes

/-- Settles O9: the stream is what `bindStream` lists, and the reset after it writes the registers only. -/
theorem bindMakesStreamReadable : Obligations.BindMakesStreamReadable := by
  intro s bytes rest hbox hlen
  refine ⟨_, (step_bind hbox).trans (runBind_of_lt hlen _), ?length, ?bytes, ?canonical, ?registers⟩
  case length => rw [State.resetRegs_len, State.bindStream_len_toNat hlen]
  case bytes => intro a ha; rw [State.resetRegs_byteAt, State.bindStream_byteAt _ ha]
  case canonical => rw [State.resetRegs_mem, State.resetRegs_len, State.bindStream_mem_wf hlen]
  case registers => simp

/-! ### The first read -/

/-- ESC_START loads the byte at `pos` whether or not a lookahead byte follows it (43_escape_path R142). -/
theorem effect_escStart_b0 {s : State} (h : s.pos.toNat < s.effEnd) :
    (effect .escStart s).b0 = s.byteAt s.pos.toNat := by
  obtain hone | htwo : s.pos.toNat + 1 = s.effEnd ∨ s.pos.toNat + 2 ≤ s.effEnd := by omega
  · rw [effect_escStart_of_one hone]; rfl
  · rw [effect_escStart_of_two htwo]; rfl

/-- Settles O47: reset leaves `pos` at 0, below E as the stream is not empty, and no bit buffered. -/
theorem firstReadAfterReset : Obligations.FirstReadAfterReset := by
  intro s rest hbox hlen
  obtain ⟨-, -, hfetch, -, -⟩ := readBitRule
  have hpos : ({ s with inbox := rest } : State).resetRegs.pos.toNat
      < ({ s with inbox := rest } : State).resetRegs.effEnd := by
    rw [State.resetRegs_effEnd]; exact hlen
  exact ⟨_, _, _, step_reset hbox, hfetch _ rfl hpos, rfl, exec_effect .escStart _, effect_escStart_b0 hpos⟩

end Sys2Proof.Machine
